-- ==== Sys2Proof/Word.lean ====
section
/-! DEFINITION. The widths the spec gives its values, and the two Boolean conversions of its notation
(00_scope.md section 4). Nothing in this block is signed. -/

namespace Sys2Proof

/-- One byte of a command buffer (10_state.md R27). -/
abbrev Byte := BitVec 8

/-- A duration: `DURATION_BITS = 15` bits, in ticks (00_scope.md R7). -/
abbrev Duration := BitVec 15

/-- A duration operand as it reaches the validation front end: 16 bits, unsigned (00_scope.md R8). -/
abbrev Operand := BitVec 16

/-- The wire word of one pulse command (00_scope.md R13, 30_encoding.md R47). -/
abbrev PulseWord := BitVec 32

/-- A request word (30_encoding.md R52, R58). -/
abbrev RequestWord := BitVec 64

/-- A pulse-command register index, naming P0..P3 (10_state.md R15). -/
abbrev RegIndex := BitVec 2

/-- `bool2bit` of the spec's notation. -/
abbrev bool2bit (b : Bool) : BitVec 1 := BitVec.ofBool b

/-- `bit2bool` of the spec's notation, on bit `i` of `v`. -/
abbrev bit2bool {n : Nat} (v : BitVec n) (i : Nat) : Bool := v.getLsbD i

end Sys2Proof
end

