-- ==== Sys2Proof/Syntax.lean ====
section
/-! DEFINITION. One constructor per row of spec/opcode_table.json, with the fields the row uses
(30_encoding.md R55). A field that a row does not use is ignored (R53) and has no place in its constructor. -/

namespace Sys2Proof

/-- The rows of the opcode table. The fourteen operations of R55 come first, in the order of their `op` values. -/
inductive Instr where
  /-- PC.NEW, op 0x0 (40_pulse_command.md R64). -/
  | pcNew (rd : RegIndex) (a : Operand) (la : Bool) (b : Operand) (lb : Bool)
  /-- PC.SETD0, op 0x1 (R65). -/
  | pcSetD0 (rd : RegIndex) (a : Operand)
  /-- PC.SETD1, op 0x2 (R66). -/
  | pcSetD1 (rd : RegIndex) (a : Operand)
  /-- PC.SETL0, op 0x3 (R67). -/
  | pcSetL0 (rd : RegIndex) (la : Bool)
  /-- PC.SETL1, op 0x4 (R68); the new level is carried in the `la` bit. -/
  | pcSetL1 (rd : RegIndex) (la : Bool)
  /-- PC.GET, op 0x5 (R69). -/
  | pcGet (rs1 : RegIndex)
  /-- PC.EQ, op 0x6 (R70). -/
  | pcEq (rs1 rs2 : RegIndex)
  /-- PC.PACK, op 0x7 (41_pack_unpack.md R75). -/
  | pcPack (rs1 : RegIndex)
  /-- PC.UNPACK, op 0x8 (R78). -/
  | pcUnpack (rd : RegIndex) (w : PulseWord)
  /-- SEQ.APPEND, op 0x9 (42_sequence.md R82). -/
  | seqAppend (rs1 : RegIndex)
  /-- SEQ.CLEAR, op 0xA (R84). -/
  | seqClear
  /-- SEQ.FORMAT, op 0xB (R85). -/
  | seqFormat
  /-- SEQ.PARSE, op 0xC (R86); its input is on the data-in port, not in the request word (R54). -/
  | seqParse
  /-- SEQ.DISPOSE, op 0xD (R88). -/
  | seqDispose
  /-- Reserved op 0xE (30_encoding.md R56); `rest` is bits 63:4, which the IllegalOp record needs (60_exceptions.md R93). -/
  | reservedE (rest : BitVec 60)
  /-- Reserved op 0xF (R56). -/
  | reservedF (rest : BitVec 60)
  /-- PULSE, the 32-bit pulse word (R47). It is no request; see notes/assumptions/1.md. -/
  | pulse (d0 : Duration) (l0 : Bool) (d1 : Duration) (l1 : Bool)
deriving DecidableEq, Repr

/-- What can be presented to the block: a 64-bit request word (30_encoding.md R52, R58), or a 32-bit word of the
wire format at the decoder (R47, R48). -/
inductive PortWord where
  | request (w : RequestWord)
  | wire (w : PulseWord)
deriving DecidableEq, Repr

/-- Why a presented word names no instruction. There is one reason: a request whose `op` is one of the fourteen but whose
reserved bits are not all 0 (30_encoding.md R56, R57). -/
inductive Rejection where
  | reservedBits (w : RequestWord)
deriving DecidableEq, Repr

/-- The answer of the decoder. -/
inductive Decoded where
  | instruction (i : Instr)
  | rejected (r : Rejection)
deriving DecidableEq, Repr

end Sys2Proof
end

