-- ==== Sys2Proof/WellFormed.lean ====
section
/-! DEFINITION. Which instructions name an operation. Every operand type of `Instr` is exactly as wide as its field
(30_encoding.md R52), so no operand can be out of range and two checks are left, both about the row. -/

namespace Sys2Proof

/-- Check 1: the row is a request word (30_encoding.md R58: every request word is 64 bits). PULSE is not. -/
def Instr.isRequest : Instr → Bool
  | .pcNew _ _ _ _ _ | .pcSetD0 _ _ | .pcSetD1 _ _ | .pcSetL0 _ _ | .pcSetL1 _ _ | .pcGet _ | .pcEq _ _ | .pcPack _
  | .pcUnpack _ _ | .seqAppend _ | .seqClear | .seqFormat | .seqParse | .seqDispose | .reservedE _ | .reservedF _ => true
  | .pulse _ _ _ _ => false

/-- Check 2: the row is not reserved (30_encoding.md R55, R56). -/
def Instr.isAssigned : Instr → Bool
  | .pcNew _ _ _ _ _ | .pcSetD0 _ _ | .pcSetD1 _ _ | .pcSetL0 _ _ | .pcSetL1 _ _ | .pcGet _ | .pcEq _ _ | .pcPack _
  | .pcUnpack _ _ | .seqAppend _ | .seqClear | .seqFormat | .seqParse | .seqDispose | .pulse _ _ _ _ => true
  | .reservedE _ | .reservedF _ => false

/-- The fourteen operations of 30_encoding.md R55. -/
def Instr.wellFormed (i : Instr) : Bool := i.isRequest && i.isAssigned

end Sys2Proof
end

