-- ==== Sys2Proof/Decode.lean ====
section
/-! DEFINITION. Decoding, total on every presented word, and the encoder written from the same tables
(30_encoding.md R47, R52, R55 to R59). -/

namespace Sys2Proof

/-! ### The fields of a request word (30_encoding.md R52) -/

def opField (w : RequestWord) : BitVec 4 := w.extractLsb' 0 4
def rdField (w : RequestWord) : RegIndex := w.extractLsb' 4 2
def rs1Field (w : RequestWord) : RegIndex := w.extractLsb' 6 2
def rs2Field (w : RequestWord) : RegIndex := w.extractLsb' 8 2
def res0Field (w : RequestWord) : BitVec 6 := w.extractLsb' 10 6
def aField (w : RequestWord) : Operand := w.extractLsb' 16 16
def bField (w : RequestWord) : Operand := w.extractLsb' 32 16
def laField (w : RequestWord) : Bool := bit2bool w 48
def lbField (w : RequestWord) : Bool := bit2bool w 49
def res1Field (w : RequestWord) : BitVec 14 := w.extractLsb' 50 14

/-- The word operand of PC.UNPACK, `R[47:16] = b ++ a` (R52). -/
def wField (w : RequestWord) : PulseWord := w.extractLsb' 16 32

/-- Bits 63:4, what a reserved row keeps. -/
def restField (w : RequestWord) : BitVec 60 := w.extractLsb' 4 60

/-- The operation an assigned `op` value selects, with its fields (R55, R57). The two reserved values select their rows. -/
def selectOp (w : RequestWord) : Instr :=
  match (opField w).toNat with
  | 0x0 => .pcNew (rdField w) (aField w) (laField w) (bField w) (lbField w)
  | 0x1 => .pcSetD0 (rdField w) (aField w)
  | 0x2 => .pcSetD1 (rdField w) (aField w)
  | 0x3 => .pcSetL0 (rdField w) (laField w)
  | 0x4 => .pcSetL1 (rdField w) (laField w)
  | 0x5 => .pcGet (rs1Field w)
  | 0x6 => .pcEq (rs1Field w) (rs2Field w)
  | 0x7 => .pcPack (rs1Field w)
  | 0x8 => .pcUnpack (rdField w) (wField w)
  | 0x9 => .seqAppend (rs1Field w)
  | 0xA => .seqClear
  | 0xB => .seqFormat
  | 0xC => .seqParse
  | 0xD => .seqDispose
  | 0xE => .reservedE (restField w)
  | _ => .reservedF (restField w)

/-- Decoding a request word (R57). A word with a reserved `op` belongs to that row of the table whatever its other bits
are (the row's mask is 0xF); a word with an assigned `op` and a reserved bit set is rejected. Both raise IllegalOp (R56). -/
def decodeRequest (w : RequestWord) : Decoded :=
  if (opField w = 0xE#4 ∨ opField w = 0xF#4) ∨ (res0Field w = 0 ∧ res1Field w = 0) then .instruction (selectOp w)
  else .rejected (.reservedBits w)

/-- Decoding a pulse word (R47, R49): every one of the 2^32 words is well formed (R48). -/
def decodePulse (w : PulseWord) : Instr :=
  .pulse (w.extractLsb' 0 15) (bit2bool w 15) (w.extractLsb' 16 15) (bit2bool w 31)

/-- The decoder. -/
def decode : PortWord → Decoded
  | .request w => decodeRequest w
  | .wire w => .instruction (decodePulse w)

/-! ### The encoder (R52, R55; unused and reserved fields are 0, R59) -/

/-- A request word from its fields, each at its place (R52); both reserved fields are 0. -/
def requestWord (lb la : Bool) (b a : Operand) (rs2 rs1 rd : RegIndex) (op : BitVec 4) : RequestWord :=
  (bool2bit lb).setWidth 64 <<< 49 ||| (bool2bit la).setWidth 64 <<< 48 ||| b.setWidth 64 <<< 32 |||
    a.setWidth 64 <<< 16 ||| rs2.setWidth 64 <<< 8 ||| rs1.setWidth 64 <<< 6 ||| rd.setWidth 64 <<< 4 ||| op.setWidth 64

/-- The request word of a reserved row: `op` below the other 60 bits. -/
def reservedWord (rest : BitVec 60) (op : BitVec 4) : RequestWord :=
  rest.setWidth 64 <<< 4 ||| op.setWidth 64

/-- A pulse word from its fields, most significant first (R47). -/
def pulseWord (d0 : Duration) (l0 : Bool) (d1 : Duration) (l1 : Bool) : PulseWord :=
  bool2bit l1 ++ d1 ++ bool2bit l0 ++ d0

/-- The word of an instruction. -/
def encode : Instr → PortWord
  | .pcNew rd a la b lb => .request (requestWord lb la b a 0 0 rd 0x0)
  | .pcSetD0 rd a => .request (requestWord false false 0 a 0 0 rd 0x1)
  | .pcSetD1 rd a => .request (requestWord false false 0 a 0 0 rd 0x2)
  | .pcSetL0 rd la => .request (requestWord false la 0 0 0 0 rd 0x3)
  | .pcSetL1 rd la => .request (requestWord false la 0 0 0 0 rd 0x4)
  | .pcGet rs1 => .request (requestWord false false 0 0 0 rs1 0 0x5)
  | .pcEq rs1 rs2 => .request (requestWord false false 0 0 rs2 rs1 0 0x6)
  | .pcPack rs1 => .request (requestWord false false 0 0 0 rs1 0 0x7)
  | .pcUnpack rd w => .request (requestWord false false (w.extractLsb' 16 16) (w.extractLsb' 0 16) 0 0 rd 0x8)
  | .seqAppend rs1 => .request (requestWord false false 0 0 0 rs1 0 0x9)
  | .seqClear => .request (requestWord false false 0 0 0 0 0 0xA)
  | .seqFormat => .request (requestWord false false 0 0 0 0 0 0xB)
  | .seqParse => .request (requestWord false false 0 0 0 0 0 0xC)
  | .seqDispose => .request (requestWord false false 0 0 0 0 0 0xD)
  | .reservedE rest => .request (reservedWord rest 0xE)
  | .reservedF rest => .request (reservedWord rest 0xF)
  | .pulse d0 l0 d1 l1 => .wire (pulseWord d0 l0 d1 l1)

/-- The bits of a request word that its row uses (R55), with `op` and the reserved fields; every other bit is ignored (R53).
A pulse word is used whole (R47). -/
def Instr.usedMask : Instr → RequestWord
  | .pcNew _ _ _ _ _ => 0xFFFFFFFFFFFFFC3F#64
  | .pcSetD0 _ _ => 0xFFFC0000FFFFFC3F#64
  | .pcSetD1 _ _ => 0xFFFC0000FFFFFC3F#64
  | .pcSetL0 _ _ => 0xFFFD00000000FC3F#64
  | .pcSetL1 _ _ => 0xFFFD00000000FC3F#64
  | .pcGet _ => 0xFFFC00000000FCCF#64
  | .pcEq _ _ => 0xFFFC00000000FFCF#64
  | .pcPack _ => 0xFFFC00000000FCCF#64
  | .pcUnpack _ _ => 0xFFFCFFFFFFFFFC3F#64
  | .seqAppend _ => 0xFFFC00000000FCCF#64
  | .seqClear => 0xFFFC00000000FC0F#64
  | .seqFormat => 0xFFFC00000000FC0F#64
  | .seqParse => 0xFFFC00000000FC0F#64
  | .seqDispose => 0xFFFC00000000FC0F#64
  | .reservedE _ => 0xFFFFFFFFFFFFFFFF#64
  | .reservedF _ => 0xFFFFFFFFFFFFFFFF#64
  | .pulse _ _ _ _ => 0xFFFFFFFF#64

/-! ### The opcode table's words -/

/-- The presented word that an opcode-table word of `nbits` bits stands for: 32 bits are a pulse word (row PULSE, format
W32); any other width up to 64 is a request word (format REQ64), the bits above `nbits` being 0. See notes/assumptions/9.md. -/
def tableWord (nbits w : Nat) : PortWord :=
  if nbits = 32 then .wire (BitVec.ofNat 32 w) else .request (BitVec.ofNat 64 w)

/-- The instruction the decoder reads from an opcode-table word. -/
def decodeTableWord (nbits w : Nat) : Option Instr :=
  if nbits ≤ 64 then
    match decode (tableWord nbits w) with
    | .instruction i => some i
    | .rejected _ => none
  else none

end Sys2Proof
end

