-- ==== Sys2Proof/Config.lean ====
section
/-! DEFINITION. What the spec leaves open as named parameters (00_scope.md R9, R11, R12), and the free choice `draw(S)` of
its notation (00_scope.md section 4). -/

namespace Sys2Proof

/-- `MIN_DURATION0`, an OPEN parameter with the value set 0, 1 (00_scope.md R9). -/
inductive MinDuration0 where
  | zero
  | one
deriving DecidableEq, Repr

/-- `DECODE_MIN_POLICY`, an OPEN parameter (00_scope.md R11). -/
inductive DecodeMinPolicy where
  | accept
  | reject
deriving DecidableEq, Repr

/-- The static configuration inputs of the block (10_state.md R14, R21). They take their values at reset and keep them until
the next reset (70_reset_and_hazards.md R109). -/
structure Config where
  /-- `MIN_DURATION0` (R9). -/
  minDuration0 : MinDuration0
  /-- `DECODE_MIN_POLICY` (R11). -/
  decodeMinPolicy : DecodeMinPolicy
  /-- `CMDLIST_MAX`: a number, or `none` for no bound (R12). -/
  cmdlistMax : Option Nat
  /-- `PARSE_MAX_BYTES`: a number, or `none` for no bound (R12). -/
  parseMaxBytes : Option Nat
deriving DecidableEq, Repr

/-- DESIGN CHOICE (notes/assumptions/5.md), unsafe for a statement that rests on it: the configuration that `State.reset` is
given. The spec leaves all four inputs open; no statement of this package rests on these values. -/
def Config.atReset : Config :=
  ⟨.zero, .accept, none, none⟩

/-- The free choices of `draw(S)`: the `k`-th draw of a run takes element `freeChoice k` (modulo the size) of S. It has no body, so
a claim holds for every choice (00_scope.md section 4; notes/assumptions/4.md). Safe. -/
opaque Config.freeChoice : Nat → Nat

end Sys2Proof
end

