-- ==== Sys2Proof/Machine/State.lean ====
section
/-! DEFINITION. The machine's state as plain data, its responses, the reasons a step stops, and reset
(10_state.md; 40_pulse_command.md R62; 60_exceptions.md R91, R93). -/

namespace Sys2Proof.Machine

/-- A pulse command `(d0, l0, d1, l1)` (10_state.md R14, R15). -/
structure PulseCommand where
  d0 : Duration
  l0 : Bool
  d1 : Duration
  l1 : Bool
deriving DecidableEq, Repr

/-- The `field` of a RangeError record (40_pulse_command.md R62). -/
inductive RangeField where
  | duration0
  | duration1
deriving DecidableEq, Repr

/-- The `kind` of a RangeError record (R62). -/
inductive RangeKind where
  | max
  | min
deriving DecidableEq, Repr

/-- RangeErrorInfo (R62): the field, which bound was violated, the bound, the rejected value. -/
structure RangeErrorInfo where
  field : RangeField
  kind : RangeKind
  bound : BitVec 16
  value : BitVec 16
deriving DecidableEq, Repr

/-- The error statuses with their info records (60_exceptions.md R91, R93). An error is a response, not a stop. -/
inductive Error where
  /-- A duration outside its bound. -/
  | rangeError (info : RangeErrorInfo)
  /-- The decoder's input length is not a multiple of 4; carries `len(IN)`. -/
  | formatError (length : Nat)
  /-- A gated operation after SEQ.DISPOSE. -/
  | disposedError
  /-- A reserved `op` or a reserved bit; carries the whole request word. -/
  | illegalOp (request : RequestWord)
  /-- A read of a register holding ⊥; carries its index. -/
  | unwritten (index : RegIndex)
deriving DecidableEq, Repr

/-- The results of the operations. -/
inductive Result where
  /-- `return ()`. -/
  | done
  /-- PC.GET (40_pulse_command.md R69). -/
  | fields (duration0 : BitVec 16) (level0 : Bool) (duration1 : BitVec 16) (level1 : Bool)
  /-- PC.EQ (R70). -/
  | equal (b : Bool)
  /-- PC.PACK (41_pack_unpack.md R75). -/
  | packed (word : PulseWord) (bytes : List Byte)
  /-- SEQ.FORMAT, on the data-out port (42_sequence.md R85, 30_encoding.md R54). -/
  | buffer (bytes : List Byte)
  /-- SEQ.PARSE (R86). -/
  | sequence (commands : List PulseCommand)
  /-- The decoder's answer to one pulse word (41_pack_unpack.md R76; notes/assumptions/1.md). -/
  | command (c : PulseCommand)
deriving DecidableEq, Repr

/-- The response that ends every operation (10_state.md R22). -/
inductive Response where
  | ok (r : Result)
  | error (e : Error)
deriving DecidableEq, Repr

/-- What the host presents: a word, and the bytes on the data-in port (30_encoding.md R52, R54). -/
structure Presented where
  word : PortWord
  dataIn : List Byte
deriving DecidableEq, Repr

/-- The state. The first five fields are the block's whole architectural state (10_state.md R14). `cfg` is its static
configuration. The last four are the model's own: the host's side of the ports, the event history, the count of draws. -/
structure State where
  /-- P0..P3, each ⊥ or a pulse command (10_state.md R15, R18). -/
  p : Vector (Option PulseCommand) 4
  /-- CMDLIST, oldest first (R23). -/
  cmdlist : List PulseCommand
  /-- DISPOSED (R24). -/
  disposed : Bool
  /-- OUTBUF, ⊥ or the buffer of the last successful SEQ.FORMAT (R25). -/
  outbuf : Option (List Byte)
  /-- RXSEQ, ⊥ or the sequence of the last successful SEQ.PARSE (R26). -/
  rxseq : Option (List PulseCommand)
  /-- The static configuration inputs (R21); no step changes them. -/
  cfg : Config
  /-- The requests presented and not yet taken, oldest first (R19, 20_memory.md R41; notes/assumptions/2.md). -/
  port : List Presented
  /-- The bytes on the data-in port for the request in execution (30_encoding.md R54; notes/assumptions/2.md). -/
  dataIn : List Byte
  /-- The responses given, oldest first: the event history of 60_exceptions.md R96 (notes/assumptions/3.md). -/
  history : List Response
  /-- How many free choices have been made (notes/assumptions/4.md). -/
  draws : Nat
deriving DecidableEq, Repr

/-- Why a step stops: the block has no transition (`no step`, 60_exceptions.md R97). -/
inductive Fault where
  /-- SEQ.APPEND on a command list at CMDLIST_MAX (42_sequence.md R83). Safe: nothing is proved of what follows. -/
  | appendAtCapacity
  /-- SEQ.PARSE on an input longer than PARSE_MAX_BYTES (R87). Safe. -/
  | parseOverBound
deriving DecidableEq, Repr

/-- Why an instruction has no meaning. -/
inductive Refusal where
  /-- Raised by an arm of `exec` that gives its instruction no meaning yet. No arm does. Safe. -/
  | notModelled (mnemonic : String)
deriving DecidableEq, Repr

/-- Reset under a configuration (10_state.md R30, 70_reset_and_hazards.md R108, R109). Nothing is presented, no response has been
given and no draw made. -/
def State.resetWith (cfg : Config) : State where
  p := #v[none, none, none, none]
  cmdlist := []
  disposed := false
  outbuf := none
  rxseq := none
  cfg := cfg
  port := []
  dataIn := []
  history := []
  draws := 0

/-- The machine right after reset. The configuration is a DESIGN CHOICE (notes/assumptions/5.md). -/
def State.reset : State := State.resetWith Config.atReset

end Sys2Proof.Machine
end

