-- ==== Sys2Proof/Machine/Ops.lean ====
section
/-! DEFINITION. The shared operations over registers, buffers and responses: reading and writing a pulse-command register,
ending an operation with a result, raising an error (this machine's exceptions: 60_exceptions.md R94 to R98), taking a
request from the port. -/

namespace Sys2Proof.Machine

/-- The three outcomes of a step, for this machine. -/
abbrev Outcome := Host.Outcome State Fault Refusal

/-! ### Registers -/

/-- `P[i]` (10_state.md R15). -/
def State.readReg (s : State) (i : RegIndex) : Option PulseCommand :=
  s.p[i.toNat]'i.isLt

/-- `P[i] <- c`. It changes no other register (40_pulse_command.md R71). -/
def State.writeReg (s : State) (i : RegIndex) (c : PulseCommand) : State :=
  { s with p := s.p.set i.toNat (some c) i.isLt }

/-! ### Byte buffers (10_state.md R27) -/

/-- `MemRead(B, k, 1)` of a buffer: the byte at offset `k`; an offset outside the buffer does not exist. -/
def memRead (b : List Byte) (k : Nat) : Option Byte := b[k]?

/-- The byte at offset `k` of the output buffer space; none when OUTBUF is ⊥ or has no such offset. -/
def State.outByte (s : State) (k : Nat) : Option Byte := s.outbuf.bind fun b => memRead b k

/-- The form of OUTBUF: ⊥, or whole 4-byte groups (00_scope.md R13, 20_memory.md R36). -/
def Memory.wf (b : Option (List Byte)) : Bool :=
  match b with
  | none => true
  | some bytes => bytes.length % 4 == 0

/-! ### Responses -/

/-- The response joins the event history; nothing else changes (10_state.md R22, 60_exceptions.md R96). -/
def State.respond (s : State) (r : Response) : State :=
  { s with history := s.history ++ [r] }

/-- `return r`: the operation ends with status OK (00_scope.md section 4). -/
def finish (r : Result) (s : State) : Outcome := .next (s.respond (.ok r))

/-- `raise E`: the operation ends with an error response and writes no state (60_exceptions.md R94). There is no trap: nothing is
saved and control goes nowhere (R95), and the block takes the next request in the ordinary way (R96). -/
def raise (e : Error) (s : State) : Outcome := .next (s.respond (.error e))

/-- `draw` on the set of `e` and `es`: a free choice (00_scope.md section 4; notes/assumptions/4.md). -/
def draw (k : Nat) (e : Error) (es : List Error) : Error :=
  (e :: es).getD (Config.freeChoice k % (es.length + 1)) e

/-- `if E ≠ ∅: raise draw(E)`, and otherwise go on. `es` lists the set E (60_exceptions.md R98). A set of one element leaves
nothing to choose and counts no draw. -/
def guardErrors (es : List Error) (s : State) (k : Outcome) : Outcome :=
  match es.dedup with
  | [] => k
  | [e] => raise e s
  | e :: es' => raise (draw s.draws e es') { s with draws := s.draws + 1 }

/-- `c = P[i]; if c = ⊥: raise Unwritten(i)`, and otherwise go on with `c` (10_state.md R18). -/
def withReg (i : RegIndex) (s : State) (k : PulseCommand → Outcome) : Outcome :=
  match s.readReg i with
  | none => raise (.unwritten i) s
  | some c => k c

/-- The Unwritten errors of reading the registers `is` (40_pulse_command.md R70, 42_sequence.md R82). -/
def unwrittenErrors (s : State) (is : List RegIndex) : List Error :=
  (is.filter fun i => (s.readReg i).isNone).map .unwritten

/-- DisposedError, while DISPOSED (42_sequence.md R89). -/
def disposedErrors (s : State) : List Error :=
  if s.disposed then [.disposedError] else []

/-! ### The request port -/

/-- Taking the oldest presented item: it leaves the port, and its bytes stand on the data-in port (20_memory.md R41,
30_encoding.md R54). -/
def State.accept (s : State) (item : Presented) (rest : List Presented) : State :=
  { s with port := rest, dataIn := item.dataIn }

/-- What a rejected word raises: IllegalOp with the whole request word (30_encoding.md R56, 60_exceptions.md R93). -/
def raiseRejection (r : Rejection) (s : State) : Outcome :=
  match r with
  | .reservedBits w => raise (.illegalOp w) s

/-! ### Status codes (60_exceptions.md R91, 40_pulse_command.md R62) -/

def Error.code : Error → Nat
  | .rangeError _ => 1
  | .formatError _ => 2
  | .disposedError => 3
  | .illegalOp _ => 4
  | .unwritten _ => 5

/-- The status code of a response. -/
def Response.status : Response → Nat
  | .ok _ => 0
  | .error e => e.code

/-- The bytes a response delivers on the data-out port: SEQ.FORMAT's buffer, and none for any other response
(30_encoding.md R54, 60_exceptions.md R94). -/
def Response.dataOut : Response → Option (List Byte)
  | .ok (.buffer b) => some b
  | _ => none

def RangeField.code : RangeField → Nat
  | .duration0 => 0
  | .duration1 => 1

def RangeKind.code : RangeKind → Nat
  | .max => 0
  | .min => 1

end Sys2Proof.Machine
end

