-- ==== Sys2Proof/Machine/Operands.lean ====
section
/-! DEFINITION. Validation of duration operands and of decoded commands (40_pulse_command.md R61; 41_pack_unpack.md R77), and
the narrowing of a validated operand. The block has no flags (10_state.md R20), so there is no flag computation. -/

namespace Sys2Proof.Machine

/-- `DURATION_MAX` as an operand (00_scope.md R7). -/
def durationMax : Operand := 32767

/-- `MIN_DURATION0` as an operand (00_scope.md R9). -/
def minDuration0 (cfg : Config) : Operand :=
  match cfg.minDuration0 with
  | .zero => 0
  | .one => 1

/-- `checkD0` (40_pulse_command.md R61). -/
def checkD0 (cfg : Config) (v : Operand) : Option RangeErrorInfo :=
  if v > durationMax then some ⟨.duration0, .max, durationMax, v⟩
  else if v < minDuration0 cfg then some ⟨.duration0, .min, minDuration0 cfg, v⟩
  else none

/-- `checkD1` (R61). `MIN_DURATION1 = 0`, so there is no lower check (00_scope.md R10). -/
def checkD1 (v : Operand) : Option RangeErrorInfo :=
  if v > durationMax then some ⟨.duration1, .max, durationMax, v⟩ else none

/-- The 15 bits of a validated operand, `v[14:0]` (R64). -/
def duration (v : Operand) : Duration := v.extractLsb' 0 15

/-- A duration as a 16-bit result, `zext_16` (R69). -/
def zext16 (d : Duration) : BitVec 16 := d.setWidth 16

/-- `decodeCheck` (41_pack_unpack.md R77). -/
def decodeCheck (cfg : Config) (c : PulseCommand) : Option RangeErrorInfo :=
  if cfg.decodeMinPolicy = .reject ∧ zext16 c.d0 < minDuration0 cfg then
    some ⟨.duration0, .min, minDuration0 cfg, zext16 c.d0⟩
  else none

/-- The RangeErrors among the answers of some checks. -/
def rangeErrors (checks : List (Option RangeErrorInfo)) : List Error :=
  checks.filterMap fun c => c.map .rangeError

end Sys2Proof.Machine
end

