-- ==== Sys2Proof/Machine/Pack.lean ====
section
/-! DEFINITION. The packer and the unpacker, of one command and of a sequence (20_memory.md R31; 30_encoding.md R47 to R50;
41_pack_unpack.md R72 to R76; 42_sequence.md R80, R81). They are pure and hold no state (20_memory.md R38). -/

namespace Sys2Proof.Machine

/-- `pack(c)` (41_pack_unpack.md R72). -/
def pack (c : PulseCommand) : PulseWord :=
  bool2bit c.l1 ++ c.d1 ++ bool2bit c.l0 ++ c.d0

/-- The two bytes of a segment, low byte first: `d & 0xFF` and `(d >> 8) | (l ? 0x80 : 0x00)` (R72). -/
def segmentBytes (d : Duration) (l : Bool) : List Byte :=
  [(d &&& 0xFF#15).setWidth 8, (d >>> 8).setWidth 8 ||| (if l then 0x80#8 else 0x00#8)]

/-- `packBytes(c)` (R72). -/
def packBytes (c : PulseCommand) : List Byte :=
  segmentBytes c.d0 c.l0 ++ segmentBytes c.d1 c.l1

/-- `unpack(W)` (41_pack_unpack.md R76). -/
def unpack (w : PulseWord) : PulseCommand :=
  ⟨w.extractLsb' 0 15, bit2bool w 15, w.extractLsb' 16 15, bit2bool w 31⟩

/-- The duration of two bytes, `lo | ((hi & 0x7F) << 8)` (R76). -/
def segmentDuration (lo hi : Byte) : Duration :=
  lo.setWidth 15 ||| ((hi &&& 0x7F#8).setWidth 15 <<< 8)

/-- The level in a high byte, `(hi & 0x80) ≠ 0` (R76). -/
def segmentLevel (hi : Byte) : Bool := (hi &&& 0x80#8) != 0#8

/-- `unpackBytes(b0, b1, b2, b3)` (R76). -/
def unpackBytes (b0 b1 b2 b3 : Byte) : PulseCommand :=
  ⟨segmentDuration b0 b1, segmentLevel b1, segmentDuration b2 b3, segmentLevel b3⟩

/-- The word of a 4-byte group: byte 0 is the least significant (20_memory.md R31). -/
def groupWord (b0 b1 b2 b3 : Byte) : PulseWord :=
  b0.setWidth 32 ||| (b1.setWidth 32 <<< 8) ||| (b2.setWidth 32 <<< 16) ||| (b3.setWidth 32 <<< 24)

/-- `encodeSeq` (42_sequence.md R80): the groups in order, no padding, no separators. -/
def encodeSeq (cs : List PulseCommand) : List Byte := cs.flatMap packBytes

/-- The commands of the 4-byte groups of a buffer, in order (42_sequence.md R81). Bytes after the last whole group are not read;
`decodeErrors` rejects such a buffer as a whole. -/
def decodeGroups : List Byte → List PulseCommand
  | b0 :: b1 :: b2 :: b3 :: rest => unpackBytes b0 b1 b2 b3 :: decodeGroups rest
  | _ => []

/-- The errors of `decodeSeq` (R81): FormatError alone when the length is not a multiple of 4 (60_exceptions.md R98 item 2), and
otherwise the failing groups' records. -/
def decodeErrors (cfg : Config) (b : List Byte) : List Error :=
  if b.length % 4 ≠ 0 then [.formatError b.length]
  else rangeErrors ((decodeGroups b).map (decodeCheck cfg))

end Sys2Proof.Machine
end

