-- ==== Sys2Proof/Machine/PackUnpack.lean ====
section
/-! DEFINITION. PC.PACK, PC.UNPACK (41_pack_unpack.md), and the decoder on a single pulse word. -/

namespace Sys2Proof.Machine

/-- PC.PACK (41_pack_unpack.md R75). It never raises RangeError (R73). -/
def execPcPack (rs1 : RegIndex) (s : State) : Outcome :=
  withReg rs1 s fun c => finish (.packed (pack c) (packBytes c)) s

/-- PC.UNPACK (R78). `P[rd]` is not read. -/
def execPcUnpack (rd : RegIndex) (w : PulseWord) (s : State) : Outcome :=
  guardErrors (rangeErrors [decodeCheck s.cfg (unpack w)]) s (finish .done (s.writeReg rd (unpack w)))

/-- PULSE: the decoder's answer to one pulse word, its command or the RangeError of `decodeCheck` (30_encoding.md R48;
41_pack_unpack.md R76, R77). The decoder holds no state (10_state.md R14), so nothing is written. DEDUCED:
notes/assumptions/1.md. -/
def execPulse (d0 : Duration) (l0 : Bool) (d1 : Duration) (l1 : Bool) (s : State) : Outcome :=
  guardErrors (rangeErrors [decodeCheck s.cfg ⟨d0, l0, d1, l1⟩]) s (finish (.command ⟨d0, l0, d1, l1⟩) s)

end Sys2Proof.Machine
end

