-- ==== Sys2Proof/Machine/PulseCommand.lean ====
section
/-! DEFINITION. The validation front end: PC.NEW, PC.SETD0, PC.SETD1, PC.SETL0, PC.SETL1, PC.GET, PC.EQ
(40_pulse_command.md). No operation of it writes a flag (10_state.md R20). -/

namespace Sys2Proof.Machine

/-- PC.NEW (40_pulse_command.md R64, R63). `P[rd]` is not read. -/
def execPcNew (rd : RegIndex) (a : Operand) (la : Bool) (b : Operand) (lb : Bool) (s : State) : Outcome :=
  guardErrors (rangeErrors [checkD0 s.cfg a, checkD1 b]) s
    (finish .done (s.writeReg rd ⟨duration a, la, duration b, lb⟩))

/-- PC.SETD0 (R65). The register is checked before the operand (60_exceptions.md R98 item 3). -/
def execPcSetD0 (rd : RegIndex) (a : Operand) (s : State) : Outcome :=
  withReg rd s fun c =>
    guardErrors (rangeErrors [checkD0 s.cfg a]) s (finish .done (s.writeReg rd { c with d0 := duration a }))

/-- PC.SETD1 (R66). -/
def execPcSetD1 (rd : RegIndex) (a : Operand) (s : State) : Outcome :=
  withReg rd s fun c =>
    guardErrors (rangeErrors [checkD1 a]) s (finish .done (s.writeReg rd { c with d1 := duration a }))

/-- PC.SETL0 (R67). Levels are never checked. -/
def execPcSetL0 (rd : RegIndex) (la : Bool) (s : State) : Outcome :=
  withReg rd s fun c => finish .done (s.writeReg rd { c with l0 := la })

/-- PC.SETL1 (R68). -/
def execPcSetL1 (rd : RegIndex) (la : Bool) (s : State) : Outcome :=
  withReg rd s fun c => finish .done (s.writeReg rd { c with l1 := la })

/-- PC.GET (R69). -/
def execPcGet (rs1 : RegIndex) (s : State) : Outcome :=
  withReg rs1 s fun c => finish (.fields (zext16 c.d0) c.l0 (zext16 c.d1) c.l1) s

/-- Value equality: all four fields match (R70). -/
def sameCommand (c e : PulseCommand) : Bool :=
  c.d0 == e.d0 && c.l0 == e.l0 && c.d1 == e.d1 && c.l1 == e.l1

/-- PC.EQ (R70). When both operands are ⊥ the reported index is a draw. -/
def execPcEq (rs1 rs2 : RegIndex) (s : State) : Outcome :=
  guardErrors (unwrittenErrors s [rs1, rs2]) s
    (withReg rs1 s fun c => withReg rs2 s fun e => finish (.equal (sameCommand c e)) s)

end Sys2Proof.Machine
end

