-- ==== Sys2Proof/Machine/Reserved.lean ====
section
/-! DEFINITION. The two reserved rows of the opcode table (30_encoding.md R56). -/

namespace Sys2Proof.Machine

/-- Reserved op 0xE: IllegalOp with the whole request word, no state change (30_encoding.md R56, 60_exceptions.md R93). -/
def execReservedE (rest : BitVec 60) (s : State) : Outcome := raise (.illegalOp (reservedWord rest 0xE)) s

/-- Reserved op 0xF (R56). -/
def execReservedF (rest : BitVec 60) (s : State) : Outcome := raise (.illegalOp (reservedWord rest 0xF)) s

end Sys2Proof.Machine
end

