-- ==== Sys2Proof/Machine/Sequence.lean ====
section
/-! DEFINITION. SEQ.APPEND, SEQ.CLEAR, SEQ.FORMAT, SEQ.PARSE, SEQ.DISPOSE (42_sequence.md). -/

namespace Sys2Proof.Machine

/-- `CMDLIST_MAX ≠ none and len(CMDLIST) = CMDLIST_MAX` (42_sequence.md R82, R83). -/
def atCapacity (s : State) : Bool := s.cfg.cmdlistMax == some s.cmdlist.length

/-- `PARSE_MAX_BYTES ≠ none and len(IN) > PARSE_MAX_BYTES` (R86, R87). -/
def overParseBound (s : State) : Bool :=
  match s.cfg.parseMaxBytes with
  | none => false
  | some m => decide (m < s.dataIn.length)

/-- SEQ.APPEND (R82). The list takes a copy of the value. At capacity there is no step (R83). -/
def execSeqAppend (rs1 : RegIndex) (s : State) : Outcome :=
  guardErrors (disposedErrors s ++ unwrittenErrors s [rs1]) s
    (withReg rs1 s fun c =>
      if atCapacity s then .fault .appendAtCapacity
      else finish .done { s with cmdlist := s.cmdlist ++ [c] })

/-- SEQ.CLEAR (R84). -/
def execSeqClear (s : State) : Outcome :=
  guardErrors (disposedErrors s) s (finish .done { s with cmdlist := [] })

/-- SEQ.FORMAT (R85). CMDLIST is read, not changed; the buffer goes out with the response and is recorded in OUTBUF. -/
def execSeqFormat (s : State) : Outcome :=
  guardErrors (disposedErrors s) s
    (finish (.buffer (encodeSeq s.cmdlist)) { s with outbuf := some (encodeSeq s.cmdlist) })

/-- SEQ.PARSE (R86) of the bytes on the data-in port. It is not gated by DISPOSED (R89). Over the bound there is no step (R87). -/
def execSeqParse (s : State) : Outcome :=
  if overParseBound s then .fault .parseOverBound
  else
    guardErrors (decodeErrors s.cfg s.dataIn) s
      (finish (.sequence (decodeGroups s.dataIn)) { s with rxseq := some (decodeGroups s.dataIn) })

/-- SEQ.DISPOSE (R88). CMDLIST keeps its content. -/
def execSeqDispose (s : State) : Outcome :=
  finish .done { s with disposed := true }

end Sys2Proof.Machine
end

