-- ==== Sys2Proof/Machine/Dispatch.lean ====
section
/-! DEFINITION. One arm per constructor of Instr, each one call of that instruction's own meaning. -/

namespace Sys2Proof.Machine

def exec (i : Instr) (s : State) : Host.Outcome State Fault Refusal :=
  match i with
  | .pcNew rd a la b lb => Sys2Proof.Machine.execPcNew rd a la b lb s
  | .pcSetD0 rd a => Sys2Proof.Machine.execPcSetD0 rd a s
  | .pcSetD1 rd a => Sys2Proof.Machine.execPcSetD1 rd a s
  | .pcSetL0 rd la => Sys2Proof.Machine.execPcSetL0 rd la s
  | .pcSetL1 rd la => Sys2Proof.Machine.execPcSetL1 rd la s
  | .pcGet rs1 => Sys2Proof.Machine.execPcGet rs1 s
  | .pcEq rs1 rs2 => Sys2Proof.Machine.execPcEq rs1 rs2 s
  | .pcPack rs1 => Sys2Proof.Machine.execPcPack rs1 s
  | .pcUnpack rd w => Sys2Proof.Machine.execPcUnpack rd w s
  | .seqAppend rs1 => Sys2Proof.Machine.execSeqAppend rs1 s
  | .seqClear => Sys2Proof.Machine.execSeqClear s
  | .seqFormat => Sys2Proof.Machine.execSeqFormat s
  | .seqParse => Sys2Proof.Machine.execSeqParse s
  | .seqDispose => Sys2Proof.Machine.execSeqDispose s
  | .reservedE rest => Sys2Proof.Machine.execReservedE rest s
  | .reservedF rest => Sys2Proof.Machine.execReservedF rest s
  | .pulse d0 l0 d1 l1 => Sys2Proof.Machine.execPulse d0 l0 d1 l1 s

end Sys2Proof.Machine
end

