-- ==== Sys2Proof/Machine/Step.lean ====
section
/-! DEFINITION. One step: the oldest presented item is taken from the request port and executed whole (20_memory.md R37, R41).
The block has no program counter and fetches nothing from memory (10_state.md R19, 20_memory.md R45). -/

namespace Sys2Proof.Machine

/-- Executing a presented item: its instruction's meaning, or IllegalOp for a rejected word (30_encoding.md R57). -/
def execDecoded (d : Decoded) (s : State) : Host.Outcome State Fault Refusal :=
  match d with
  | .instruction i => exec i s
  | .rejected r => raiseRejection r s

/-- One step. With nothing presented the block waits: the state stays as it is (notes/assumptions/2.md). -/
def step (s : State) : Host.Outcome State Fault Refusal :=
  match s.port with
  | [] => .next s
  | item :: rest => execDecoded (decode item.word) (s.accept item rest)

/-- Presenting an opcode-table word as the next item at the port, with an empty data-in port (notes/assumptions/2.md). -/
def State.withFetchWord (s : State) (nbits w : Nat) : State :=
  { s with port := ⟨tableWord nbits w, []⟩ :: s.port }

end Sys2Proof.Machine
end

