-- ==== Sys2Proof/Safety.lean ====
section
/-! DEFINITION. The terms that claims use: the invariant of the machine, the access lists of 10_state.md, the causes of each
error, and how two outcomes are compared. -/

namespace Sys2Proof.Machine

/-! ### The invariant (10_state.md R17, R23; 20_memory.md R36; 42_sequence.md R87) -/

/-- `d0 ≥ MIN_DURATION0` (R17). -/
abbrev meetsMinimum (cfg : Config) (c : PulseCommand) : Prop := minDuration0 cfg ≤ zext16 c.d0

/-- The configurations under which no register, list element or parsed command may fall below the minimum: R17's exception,
PC.UNPACK under `DECODE_MIN_POLICY = accept`, is shut. -/
abbrev minimumEnforced (cfg : Config) : Prop := cfg.decodeMinPolicy = .reject ∨ cfg.minDuration0 = .zero

/-- What every step keeps. -/
structure State.Inv (s : State) : Prop where
  /-- Every written register meets the minimum, where the decoder enforces it (R17). -/
  registers : minimumEnforced s.cfg → ∀ i c, s.readReg i = some c → meetsMinimum s.cfg c
  /-- So does every element of CMDLIST: SEQ.APPEND copies a register (42_sequence.md R82). -/
  list : minimumEnforced s.cfg → ∀ c ∈ s.cmdlist, meetsMinimum s.cfg c
  /-- And every command SEQ.PARSE delivered (42_sequence.md R81). -/
  parsed : minimumEnforced s.cfg → ∀ cs, s.rxseq = some cs → ∀ c ∈ cs, meetsMinimum s.cfg c
  /-- CMDLIST is bounded by CMDLIST_MAX (10_state.md R23). -/
  capacity : ∀ n, s.cfg.cmdlistMax = some n → s.cmdlist.length ≤ n
  /-- OUTBUF holds whole groups (00_scope.md R13). -/
  buffer : Memory.wf s.outbuf = true
  /-- RXSEQ came from at most PARSE_MAX_BYTES bytes (42_sequence.md R87). -/
  parseBound : ∀ m, s.cfg.parseMaxBytes = some m → ∀ cs, s.rxseq = some cs → 4 * cs.length ≤ m

end Sys2Proof.Machine

namespace Sys2Proof

/-! ### Access lists -/

/-- The register an instruction writes, if any (10_state.md R15). -/
def Instr.writesReg : Instr → Option RegIndex
  | .pcNew rd _ _ _ _ => some rd
  | .pcSetD0 rd _ => some rd
  | .pcSetD1 rd _ => some rd
  | .pcSetL0 rd _ => some rd
  | .pcSetL1 rd _ => some rd
  | .pcUnpack rd _ => some rd
  | .pcGet _ | .pcEq _ _ | .pcPack _ | .seqAppend _ | .seqClear | .seqFormat | .seqParse | .seqDispose | .reservedE _
  | .reservedF _ | .pulse _ _ _ _ => none

/-- The registers an instruction reads (10_state.md R15). -/
def Instr.readsRegs : Instr → List RegIndex
  | .pcSetD0 rd _ => [rd]
  | .pcSetD1 rd _ => [rd]
  | .pcSetL0 rd _ => [rd]
  | .pcSetL1 rd _ => [rd]
  | .pcGet rs1 => [rs1]
  | .pcEq rs1 rs2 => [rs1, rs2]
  | .pcPack rs1 => [rs1]
  | .seqAppend rs1 => [rs1]
  | .pcNew _ _ _ _ _ | .pcUnpack _ _ | .seqClear | .seqFormat | .seqParse | .seqDispose | .reservedE _ | .reservedF _
  | .pulse _ _ _ _ => []

/-- The channel operations that DISPOSED gates (42_sequence.md R89). -/
def Instr.isGated : Instr → Bool
  | .seqAppend _ | .seqClear | .seqFormat => true
  | .pcNew _ _ _ _ _ | .pcSetD0 _ _ | .pcSetD1 _ _ | .pcSetL0 _ _ | .pcSetL1 _ _ | .pcGet _ | .pcEq _ _ | .pcPack _
  | .pcUnpack _ _ | .seqParse | .seqDispose | .reservedE _ | .reservedF _ | .pulse _ _ _ _ => false

end Sys2Proof

namespace Sys2Proof.Machine

/-- The cause of a RangeError with the record `info`: a check of the instruction's own operands, or of what it decodes, gives
that record (60_exceptions.md R91; 40_pulse_command.md R61, R64 to R66; 41_pack_unpack.md R77, R78; 42_sequence.md R81). The
instructions without such a check have no cause. PULSE is not in R91's column "raised by", which lists requests: that the
decoder raises it on a pulse word is the model's reading (notes/assumptions/1.md). -/
def rangeCause (i : Instr) (s : State) (info : RangeErrorInfo) : Prop :=
  match i with
  | .pcNew _ a _ b _ => checkD0 s.cfg a = some info ∨ checkD1 b = some info
  | .pcSetD0 _ a => checkD0 s.cfg a = some info
  | .pcSetD1 _ a => checkD1 a = some info
  | .pcUnpack _ w => decodeCheck s.cfg (unpack w) = some info
  | .seqParse => s.dataIn.length % 4 = 0 ∧ ∃ c ∈ decodeGroups s.dataIn, decodeCheck s.cfg c = some info
  | .pulse d0 l0 d1 l1 => decodeCheck s.cfg ⟨d0, l0, d1, l1⟩ = some info
  | .pcSetL0 _ _ | .pcSetL1 _ _ | .pcGet _ | .pcEq _ _ | .pcPack _ | .seqAppend _ | .seqClear | .seqFormat | .seqDispose
  | .reservedE _ | .reservedF _ => False

/-- The column "raised by" of 60_exceptions.md R91, with each error's cause and info record (R93). A request with an assigned
`op` and a reserved bit set is rejected before it is an instruction; its IllegalOp is not among these. -/
def mayRaise (i : Instr) (s : State) : Error → Prop
  | .rangeError info => rangeCause i s info
  | .formatError n => i = .seqParse ∧ n = s.dataIn.length ∧ n % 4 ≠ 0
  | .disposedError => i.isGated = true ∧ s.disposed = true
  | .illegalOp w => encode i = .request w ∧ i.isAssigned = false
  | .unwritten r => r ∈ i.readsRegs ∧ s.readReg r = none

/-! ### Comparing outcomes -/

/-- An outcome with its next state changed by `f`. -/
def mapOutcome (f : State → State) : Outcome → Outcome
  | .next t => .next (f t)
  | .fault r => .fault r
  | .refused r => .refused r

end Sys2Proof.Machine
end

