-- ==== Sys2Proof/Certificates/Slice0/Obligations.lean ====
section
/-! DEFINITION. The statements for the provers. Each says in its docstring which rule of spec/ it formalises. A next state is
written out as a record update of the state before, so every field not named in it is unchanged: that is the instruction's
frame. `history` and `draws` are the model's own fields (notes/assumptions/3.md, 4.md): a response joins `history`, and a
free choice may raise `draws`. No statement rests on a value of `Config.freeChoice` or on `Config.atReset`. -/

open Sys2Proof Sys2Proof.Machine

/-! ### Encoding -/

/-- Decoding the encoding of any instruction gives it back, for every operand (30_encoding.md R47, R52, R55, R57). -/
def Obligations.DecodeEncodeRoundTrip : Prop :=
  ∀ i : Instr, decode (encode i) = .instruction i

/-- 30_encoding.md R53: fields an operation does not use are ignored, and the encoder writes them as 0 (R59). A pulse word has no
unused bit (R47). -/
def Obligations.UnusedFieldsAreIgnored : Prop :=
  (∀ (w : RequestWord) (i : Instr), decode (.request w) = .instruction i →
      encode i = .request (w &&& i.usedMask) ∧ decode (.request (w &&& i.usedMask)) = .instruction i) ∧
  ∀ (w : PulseWord) (i : Instr), decode (.wire w) = .instruction i → encode i = .wire w

/-- 30_encoding.md R57: every 64-bit word decodes to exactly one of the fourteen operations with its fields, or is an illegal
request, whose execution answers IllegalOp with the word. -/
def Obligations.RequestDecodingIsTotal : Prop :=
  ∀ w : RequestWord,
    ((w.extractLsb' 10 6 ≠ 0 ∨ w.extractLsb' 50 14 ≠ 0 ∨ w.extractLsb' 0 4 = 0xE#4 ∨ w.extractLsb' 0 4 = 0xF#4) →
      ∀ s : State, execDecoded (decode (.request w)) s =
        .next { s with history := s.history ++ [.error (.illegalOp w)] }) ∧
    (w.extractLsb' 10 6 = 0 → w.extractLsb' 50 14 = 0 →
      (w.extractLsb' 0 4 = 0x0#4 → decode (.request w) = .instruction (.pcNew (w.extractLsb' 4 2) (w.extractLsb' 16 16)
        (w.getLsbD 48) (w.extractLsb' 32 16) (w.getLsbD 49))) ∧
      (w.extractLsb' 0 4 = 0x1#4 → decode (.request w) = .instruction (.pcSetD0 (w.extractLsb' 4 2) (w.extractLsb' 16 16))) ∧
      (w.extractLsb' 0 4 = 0x2#4 → decode (.request w) = .instruction (.pcSetD1 (w.extractLsb' 4 2) (w.extractLsb' 16 16))) ∧
      (w.extractLsb' 0 4 = 0x3#4 → decode (.request w) = .instruction (.pcSetL0 (w.extractLsb' 4 2) (w.getLsbD 48))) ∧
      (w.extractLsb' 0 4 = 0x4#4 → decode (.request w) = .instruction (.pcSetL1 (w.extractLsb' 4 2) (w.getLsbD 48))) ∧
      (w.extractLsb' 0 4 = 0x5#4 → decode (.request w) = .instruction (.pcGet (w.extractLsb' 6 2))) ∧
      (w.extractLsb' 0 4 = 0x6#4 → decode (.request w) = .instruction (.pcEq (w.extractLsb' 6 2) (w.extractLsb' 8 2))) ∧
      (w.extractLsb' 0 4 = 0x7#4 → decode (.request w) = .instruction (.pcPack (w.extractLsb' 6 2))) ∧
      (w.extractLsb' 0 4 = 0x8#4 → decode (.request w) = .instruction (.pcUnpack (w.extractLsb' 4 2) (w.extractLsb' 16 32))) ∧
      (w.extractLsb' 0 4 = 0x9#4 → decode (.request w) = .instruction (.seqAppend (w.extractLsb' 6 2))) ∧
      (w.extractLsb' 0 4 = 0xA#4 → decode (.request w) = .instruction .seqClear) ∧
      (w.extractLsb' 0 4 = 0xB#4 → decode (.request w) = .instruction .seqFormat) ∧
      (w.extractLsb' 0 4 = 0xC#4 → decode (.request w) = .instruction .seqParse) ∧
      (w.extractLsb' 0 4 = 0xD#4 → decode (.request w) = .instruction .seqDispose))

/-- Request words written out bit by bit in 95_test_vectors.md section 2.4 decode as listed there; one word for each family. -/
def Obligations.SampleWordsDecodeAsListed : Prop :=
  decode (.request 0x0001000C000E0000) = .instruction (.pcNew 0 14 true 12 false) ∧
  decode (.request 0x0000000C800E0028) = .instruction (.pcUnpack 2 0x000C800E) ∧
  decode (.request 0x0000000000000049) = .instruction (.seqAppend 1) ∧
  decode (.request 0x00000000FFFF000B) = .instruction .seqFormat ∧
  decode (.request 0x000000000000040B) = .rejected (.reservedBits 0x000000000000040B) ∧
  decode (.wire 0x000C800E) = .instruction (.pulse 14 true 12 false)

/-! ### The step -/

/-- A step takes the oldest presented item and runs the instruction its word decodes to on the state that has taken it: the item
has left the port and its bytes stand on the data-in port (20_memory.md R41, 30_encoding.md R54). A rejected word answers IllegalOp.
With nothing presented the state stays as it is: that clause is the model's choice (notes/assumptions/2.md). -/
def Obligations.StepRunsTheDecodedInstruction : Prop :=
  (∀ (s : State) (item : Presented) (rest : List Presented), s.port = item :: rest →
    (∀ i, decode item.word = .instruction i → step s = exec i { s with port := rest, dataIn := item.dataIn }) ∧
    ∀ w, decode item.word = .rejected (.reservedBits w) →
      step s = .next { s with port := rest, dataIn := item.dataIn, history := s.history ++ [.error (.illegalOp w)] }) ∧
  ∀ s : State, s.port = [] → step s = .next s

/-- The host's presentation of an opcode-table word runs exactly that word's instruction as the very next step (the model's
choice: notes/assumptions/2.md, 9.md). -/
def Obligations.FetchedTableWordRunsNext : Prop :=
  ∀ (s : State) (nbits w : Nat) (i : Instr), decodeTableWord nbits w = some i →
    step (s.withFetchWord nbits w) = exec i { s with dataIn := [] }

/-- 30_encoding.md R56: a request with a reserved op value or a reserved bit raises IllegalOp(R) with no state change, whatever else
might be wrong with it (60_exceptions.md R98 item 1). -/
def Obligations.IllegalRequestRaisesIllegalOp : Prop :=
  ∀ (s : State) (w : RequestWord) (bytes : List Byte) (rest : List Presented), s.port = ⟨.request w, bytes⟩ :: rest →
    (w.extractLsb' 0 4 = 0xE#4 ∨ w.extractLsb' 0 4 = 0xF#4 ∨ w.extractLsb' 10 6 ≠ 0 ∨ w.extractLsb' 50 14 ≠ 0) →
    step s = .next { s with port := rest, dataIn := bytes, history := s.history ++ [.error (.illegalOp w)] }

/-- The two reserved rows: execution completes with IllegalOp and the whole request word, and changes nothing
(30_encoding.md R56, 60_exceptions.md R93). -/
def Obligations.ReservedRowsAnswerIllegalOp : Prop :=
  ∀ (rest : BitVec 60) (s : State),
    (∃ w : RequestWord, encode (.reservedE rest) = .request w ∧ w.extractLsb' 0 4 = 0xE#4 ∧ w.extractLsb' 4 60 = rest ∧
      exec (.reservedE rest) s = .next { s with history := s.history ++ [.error (.illegalOp w)] }) ∧
    ∃ w : RequestWord, encode (.reservedF rest) = .request w ∧ w.extractLsb' 0 4 = 0xF#4 ∧ w.extractLsb' 4 60 = rest ∧
      exec (.reservedF rest) s = .next { s with history := s.history ++ [.error (.illegalOp w)] }

/-! ### Validation (40_pulse_command.md) -/

/-- 40_pulse_command.md R61: `checkD0` and `checkD1`, with the bounds as numbers. -/
def Obligations.DurationChecksFollowTheBounds : Prop :=
  ∀ (cfg : Config) (v : Operand),
    checkD0 cfg v =
      (if 32767 < v.toNat then some ⟨.duration0, .max, 32767, v⟩
       else if cfg.minDuration0 = .one ∧ v.toNat < 1 then some ⟨.duration0, .min, 1, v⟩ else none) ∧
    checkD1 v = (if 32767 < v.toNat then some ⟨.duration1, .max, 32767, v⟩ else none)

/-- 40_pulse_command.md R64 and R63: PC.NEW. -/
def Obligations.PcNewBuildsAValidatedCommand : Prop :=
  (∀ w : RequestWord, w.extractLsb' 0 4 = 0x0#4 → w.extractLsb' 10 6 = 0 → w.extractLsb' 50 14 = 0 →
    decode (.request w) = .instruction (.pcNew (w.extractLsb' 4 2) (w.extractLsb' 16 16) (w.getLsbD 48)
      (w.extractLsb' 32 16) (w.getLsbD 49))) ∧
  ∀ (rd : RegIndex) (a : Operand) (la : Bool) (b : Operand) (lb : Bool) (s : State),
    (a.toNat ≤ 32767 → (s.cfg.minDuration0 = .one → 1 ≤ a.toNat) → b.toNat ≤ 32767 →
      exec (.pcNew rd a la b lb) s =
        .next { s with p := s.p.set rd.toNat (some ⟨a.extractLsb' 0 15, la, b.extractLsb' 0 15, lb⟩) rd.isLt
                       history := s.history ++ [.ok .done] }) ∧
    (∀ info, (checkD0 s.cfg a = some info ∧ checkD1 b = none) ∨ (checkD0 s.cfg a = none ∧ checkD1 b = some info) →
      exec (.pcNew rd a la b lb) s = .next { s with history := s.history ++ [.error (.rangeError info)] }) ∧
    ∀ info0 info1, checkD0 s.cfg a = some info0 → checkD1 b = some info1 →
      ∃ info draws, (info = info0 ∨ info = info1) ∧
        exec (.pcNew rd a la b lb) s =
          .next { s with history := s.history ++ [.error (.rangeError info)], draws := draws }

/-- 40_pulse_command.md R65: PC.SETD0; the register is checked before the operand (60_exceptions.md R98 item 3). -/
def Obligations.PcSetD0SetsDuration0 : Prop :=
  (∀ w : RequestWord, w.extractLsb' 0 4 = 0x1#4 → w.extractLsb' 10 6 = 0 → w.extractLsb' 50 14 = 0 →
    decode (.request w) = .instruction (.pcSetD0 (w.extractLsb' 4 2) (w.extractLsb' 16 16))) ∧
  ∀ (rd : RegIndex) (a : Operand) (s : State),
    (s.readReg rd = none →
      exec (.pcSetD0 rd a) s = .next { s with history := s.history ++ [.error (.unwritten rd)] }) ∧
    ∀ c, s.readReg rd = some c →
      (∀ info, checkD0 s.cfg a = some info →
        exec (.pcSetD0 rd a) s = .next { s with history := s.history ++ [.error (.rangeError info)] }) ∧
      (a.toNat ≤ 32767 → (s.cfg.minDuration0 = .one → 1 ≤ a.toNat) →
        exec (.pcSetD0 rd a) s =
          .next { s with p := s.p.set rd.toNat (some ⟨a.extractLsb' 0 15, c.l0, c.d1, c.l1⟩) rd.isLt
                         history := s.history ++ [.ok .done] })

/-- 40_pulse_command.md R66: PC.SETD1. -/
def Obligations.PcSetD1SetsDuration1 : Prop :=
  (∀ w : RequestWord, w.extractLsb' 0 4 = 0x2#4 → w.extractLsb' 10 6 = 0 → w.extractLsb' 50 14 = 0 →
    decode (.request w) = .instruction (.pcSetD1 (w.extractLsb' 4 2) (w.extractLsb' 16 16))) ∧
  ∀ (rd : RegIndex) (a : Operand) (s : State),
    (s.readReg rd = none →
      exec (.pcSetD1 rd a) s = .next { s with history := s.history ++ [.error (.unwritten rd)] }) ∧
    ∀ c, s.readReg rd = some c →
      (32767 < a.toNat →
        exec (.pcSetD1 rd a) s =
          .next { s with history := s.history ++ [.error (.rangeError ⟨.duration1, .max, 32767, a⟩)] }) ∧
      (a.toNat ≤ 32767 →
        exec (.pcSetD1 rd a) s =
          .next { s with p := s.p.set rd.toNat (some ⟨c.d0, c.l0, a.extractLsb' 0 15, c.l1⟩) rd.isLt
                         history := s.history ++ [.ok .done] })

/-- 40_pulse_command.md R67: PC.SETL0. -/
def Obligations.PcSetL0SetsLevel0 : Prop :=
  (∀ w : RequestWord, w.extractLsb' 0 4 = 0x3#4 → w.extractLsb' 10 6 = 0 → w.extractLsb' 50 14 = 0 →
    decode (.request w) = .instruction (.pcSetL0 (w.extractLsb' 4 2) (w.getLsbD 48))) ∧
  ∀ (rd : RegIndex) (la : Bool) (s : State),
    (s.readReg rd = none →
      exec (.pcSetL0 rd la) s = .next { s with history := s.history ++ [.error (.unwritten rd)] }) ∧
    ∀ c, s.readReg rd = some c →
      exec (.pcSetL0 rd la) s =
        .next { s with p := s.p.set rd.toNat (some ⟨c.d0, la, c.d1, c.l1⟩) rd.isLt
                       history := s.history ++ [.ok .done] }

/-- 40_pulse_command.md R68: PC.SETL1; the new level comes from request bit 48. -/
def Obligations.PcSetL1SetsLevel1 : Prop :=
  (∀ w : RequestWord, w.extractLsb' 0 4 = 0x4#4 → w.extractLsb' 10 6 = 0 → w.extractLsb' 50 14 = 0 →
    decode (.request w) = .instruction (.pcSetL1 (w.extractLsb' 4 2) (w.getLsbD 48))) ∧
  ∀ (rd : RegIndex) (la : Bool) (s : State),
    (s.readReg rd = none →
      exec (.pcSetL1 rd la) s = .next { s with history := s.history ++ [.error (.unwritten rd)] }) ∧
    ∀ c, s.readReg rd = some c →
      exec (.pcSetL1 rd la) s =
        .next { s with p := s.p.set rd.toNat (some ⟨c.d0, c.l0, c.d1, la⟩) rd.isLt
                       history := s.history ++ [.ok .done] }

/-- 40_pulse_command.md R69: PC.GET; both returned durations are at most 32767. -/
def Obligations.PcGetReturnsTheFields : Prop :=
  (∀ w : RequestWord, w.extractLsb' 0 4 = 0x5#4 → w.extractLsb' 10 6 = 0 → w.extractLsb' 50 14 = 0 →
    decode (.request w) = .instruction (.pcGet (w.extractLsb' 6 2))) ∧
  ∀ (rs1 : RegIndex) (s : State),
    (s.readReg rs1 = none →
      exec (.pcGet rs1) s = .next { s with history := s.history ++ [.error (.unwritten rs1)] }) ∧
    ∀ c, s.readReg rs1 = some c →
      ∃ x y : BitVec 16, x.toNat = c.d0.toNat ∧ y.toNat = c.d1.toNat ∧ x.toNat ≤ 32767 ∧ y.toNat ≤ 32767 ∧
        exec (.pcGet rs1) s = .next { s with history := s.history ++ [.ok (.fields x c.l0 y c.l1)] }

/-- 40_pulse_command.md R70: PC.EQ; with both operands ⊥ the reported index is a draw. -/
def Obligations.PcEqComparesByValue : Prop :=
  (∀ w : RequestWord, w.extractLsb' 0 4 = 0x6#4 → w.extractLsb' 10 6 = 0 → w.extractLsb' 50 14 = 0 →
    decode (.request w) = .instruction (.pcEq (w.extractLsb' 6 2) (w.extractLsb' 8 2))) ∧
  ∀ (rs1 rs2 : RegIndex) (s : State),
    (∀ c e, s.readReg rs1 = some c → s.readReg rs2 = some e →
      exec (.pcEq rs1 rs2) s = .next { s with history := s.history ++ [.ok (.equal (decide (c = e)))] }) ∧
    (∀ i, (i = rs1 ∨ i = rs2) → s.readReg i = none →
      (∀ j, (j = rs1 ∨ j = rs2) → s.readReg j = none → j = i) →
      exec (.pcEq rs1 rs2) s = .next { s with history := s.history ++ [.error (.unwritten i)] }) ∧
    (s.readReg rs1 = none → s.readReg rs2 = none →
      ∃ i draws, (i = rs1 ∨ i = rs2) ∧
        exec (.pcEq rs1 rs2) s = .next { s with history := s.history ++ [.error (.unwritten i)], draws := draws })

/-! ### Packing (41_pack_unpack.md) -/

/-- 41_pack_unpack.md R72: the word, the four bytes, and `packBytes(c)[k] = pack(c)[8k+7 : 8k]`. -/
def Obligations.PackBuildsTheWordAndItsBytes : Prop :=
  ∀ c : PulseCommand,
    pack c = BitVec.ofBool c.l1 ++ c.d1 ++ BitVec.ofBool c.l0 ++ c.d0 ∧
    (packBytes c).map BitVec.toNat =
      [c.d0.toNat &&& 0xFF, (c.d0.toNat >>> 8) ||| (if c.l0 then 0x80 else 0x00),
       c.d1.toNat &&& 0xFF, (c.d1.toNat >>> 8) ||| (if c.l1 then 0x80 else 0x00)] ∧
    ∀ k, k < 4 → (packBytes c)[k]? = some ((pack c).extractLsb' (8 * k) 8)

/-- 41_pack_unpack.md R74: the division form gives exactly the bytes of the shift form. -/
def Obligations.DivisionFormGivesTheSameBytes : Prop :=
  (∀ d : Nat, d ≤ 32767 → d &&& 0xFF = d % 256 ∧ d >>> 8 = d / 256 ∧ (d >>> 8) ||| 0x80 = d / 256 + 128) ∧
  ∀ c : PulseCommand, (packBytes c).map BitVec.toNat =
    [c.d0.toNat % 256, c.d0.toNat / 256 + (if c.l0 then 128 else 0),
     c.d1.toNat % 256, c.d1.toNat / 256 + (if c.l1 then 128 else 0)]

/-- 41_pack_unpack.md R76: unpacking a word, unpacking four bytes, and their agreement. -/
def Obligations.UnpackReadsTheWordAndItsBytes : Prop :=
  (∀ w : PulseWord, unpack w = ⟨w.extractLsb' 0 15, w.getLsbD 15, w.extractLsb' 16 15, w.getLsbD 31⟩) ∧
  ∀ b0 b1 b2 b3 : Byte,
    (unpackBytes b0 b1 b2 b3).d0.toNat = b0.toNat ||| ((b1.toNat &&& 0x7F) <<< 8) ∧
    ((unpackBytes b0 b1 b2 b3).l0 = true ↔ b1.toNat &&& 0x80 ≠ 0) ∧
    (unpackBytes b0 b1 b2 b3).d1.toNat = b2.toNat ||| ((b3.toNat &&& 0x7F) <<< 8) ∧
    ((unpackBytes b0 b1 b2 b3).l1 = true ↔ b3.toNat &&& 0x80 ≠ 0) ∧
    unpackBytes b0 b1 b2 b3 =
      unpack (b0.setWidth 32 ||| b1.setWidth 32 <<< 8 ||| b2.setWidth 32 <<< 16 ||| b3.setWidth 32 <<< 24)

/-- 41_pack_unpack.md R79: pack and unpack are inverse to each other, and PC.PACK then PC.UNPACK of the returned word into another
register gives a register equal by PC.EQ. -/
def Obligations.PackAndUnpackAreInverse : Prop :=
  (∀ c : PulseCommand, unpack (pack c) = c) ∧ (∀ w : PulseWord, pack (unpack w) = w) ∧
  ∀ (rs1 rd : RegIndex) (c : PulseCommand) (s : State), rd ≠ rs1 → s.readReg rs1 = some c →
    (s.cfg.decodeMinPolicy = .accept ∨ meetsMinimum s.cfg c) →
    ∃ w bytes t u v, exec (.pcPack rs1) s = .next t ∧ t.history = s.history ++ [.ok (.packed w bytes)] ∧
      exec (.pcUnpack rd w) t = .next u ∧ u.readReg rd = u.readReg rs1 ∧
      exec (.pcEq rs1 rd) u = .next v ∧ v.history = u.history ++ [.ok (.equal true)]

/-- 41_pack_unpack.md R77: the minimum-duration check on decode. -/
def Obligations.DecodeCheckFollowsThePolicy : Prop :=
  ∀ (cfg : Config) (c : PulseCommand),
    decodeCheck cfg c =
      if cfg.decodeMinPolicy = .reject ∧ cfg.minDuration0 = .one ∧ c.d0.toNat < 1 then
        some ⟨.duration0, .min, 1, c.d0.setWidth 16⟩
      else none

/-- 41_pack_unpack.md R75: PC.PACK returns the word and the bytes, and never raises RangeError (R73). -/
def Obligations.PcPackReturnsWordAndBytes : Prop :=
  (∀ w : RequestWord, w.extractLsb' 0 4 = 0x7#4 → w.extractLsb' 10 6 = 0 → w.extractLsb' 50 14 = 0 →
    decode (.request w) = .instruction (.pcPack (w.extractLsb' 6 2))) ∧
  ∀ (rs1 : RegIndex) (s : State),
    (s.readReg rs1 = none →
      exec (.pcPack rs1) s = .next { s with history := s.history ++ [.error (.unwritten rs1)] }) ∧
    ∀ c, s.readReg rs1 = some c →
      exec (.pcPack rs1) s = .next { s with history := s.history ++ [.ok (.packed (pack c) (packBytes c))] }

/-- 41_pack_unpack.md R78: PC.UNPACK. -/
def Obligations.PcUnpackWritesTheDecodedCommand : Prop :=
  (∀ w : RequestWord, w.extractLsb' 0 4 = 0x8#4 → w.extractLsb' 10 6 = 0 → w.extractLsb' 50 14 = 0 →
    decode (.request w) = .instruction (.pcUnpack (w.extractLsb' 4 2) (w.extractLsb' 16 32))) ∧
  ∀ (rd : RegIndex) (w : PulseWord) (s : State),
    (s.cfg.decodeMinPolicy = .reject → s.cfg.minDuration0 = .one → w.extractLsb' 0 15 ≠ 0 →
      exec (.pcUnpack rd w) s =
        .next { s with p := s.p.set rd.toNat
                         (some ⟨w.extractLsb' 0 15, w.getLsbD 15, w.extractLsb' 16 15, w.getLsbD 31⟩) rd.isLt
                       history := s.history ++ [.ok .done] }) ∧
    ((s.cfg.decodeMinPolicy = .accept ∨ s.cfg.minDuration0 = .zero) →
      exec (.pcUnpack rd w) s =
        .next { s with p := s.p.set rd.toNat
                         (some ⟨w.extractLsb' 0 15, w.getLsbD 15, w.extractLsb' 16 15, w.getLsbD 31⟩) rd.isLt
                       history := s.history ++ [.ok .done] }) ∧
    (s.cfg.decodeMinPolicy = .reject → s.cfg.minDuration0 = .one → w.extractLsb' 0 15 = 0 →
      exec (.pcUnpack rd w) s =
        .next { s with history := s.history ++ [.error (.rangeError ⟨.duration0, .min, 1, 0⟩)] })

/-- The decoder on a single pulse word: its command, or RangeError under the policy; nothing is written. That a pulse word is an
instruction at all is the model's reading (notes/assumptions/1.md); the answer is 41_pack_unpack.md R76, R77 and
30_encoding.md R48. -/
def Obligations.PulseWordAnswersItsCommand : Prop :=
  (∀ w : PulseWord, decode (.wire w) =
    .instruction (.pulse (w.extractLsb' 0 15) (w.getLsbD 15) (w.extractLsb' 16 15) (w.getLsbD 31))) ∧
  ∀ (d0 : Duration) (l0 : Bool) (d1 : Duration) (l1 : Bool) (s : State),
    ((s.cfg.decodeMinPolicy = .accept ∨ meetsMinimum s.cfg ⟨d0, l0, d1, l1⟩) →
      exec (.pulse d0 l0 d1 l1) s = .next { s with history := s.history ++ [.ok (.command ⟨d0, l0, d1, l1⟩)] }) ∧
    (s.cfg.decodeMinPolicy = .reject → ¬ meetsMinimum s.cfg ⟨d0, l0, d1, l1⟩ →
      exec (.pulse d0 l0 d1 l1) s =
        .next { s with history := s.history ++ [.error (.rangeError ⟨.duration0, .min, 1, 0⟩)] })

/-! ### Sequences (42_sequence.md) -/

/-- 42_sequence.md R80: command `i` stands at offset `4i`, in 4n bytes, with nothing between. -/
def Obligations.EncodeSeqPlacesEveryByte : Prop :=
  ∀ cs : List PulseCommand,
    (encodeSeq cs).length = 4 * cs.length ∧ encodeSeq [] = [] ∧ encodeSeq cs = (cs.map packBytes).flatten ∧
    ∀ i k c, cs[i]? = some c → k < 4 → memRead (encodeSeq cs) (4 * i + k) = (packBytes c)[k]?

/-- 42_sequence.md R81: a length that is not a multiple of 4 is a FormatError alone; otherwise group j comes from offsets 4j to 4j+3,
and the errors are those of the failing groups. -/
def Obligations.DecodeSeqReadsWholeGroups : Prop :=
  ∀ (cfg : Config) (b : List Byte),
    (b.length % 4 ≠ 0 → decodeErrors cfg b = [.formatError b.length]) ∧
    (b.length % 4 = 0 →
      (decodeGroups b).length = b.length / 4 ∧
      (∀ j, j < b.length / 4 → ∃ b0 b1 b2 b3, memRead b (4 * j) = some b0 ∧ memRead b (4 * j + 1) = some b1 ∧
        memRead b (4 * j + 2) = some b2 ∧ memRead b (4 * j + 3) = some b3 ∧
        (decodeGroups b)[j]? = some (unpackBytes b0 b1 b2 b3)) ∧
      ∀ e, e ∈ decodeErrors cfg b ↔ ∃ c ∈ decodeGroups b, ∃ info, decodeCheck cfg c = some info ∧ e = .rangeError info)

/-- 42_sequence.md R90: the four sequence laws. -/
def Obligations.SequenceEncodingLaws : Prop :=
  (∀ cs : List PulseCommand, (encodeSeq cs).length = 4 * cs.length) ∧
  (∀ (cfg : Config) (cs : List PulseCommand), (cfg.decodeMinPolicy = .accept ∨ ∀ c ∈ cs, meetsMinimum cfg c) →
    decodeErrors cfg (encodeSeq cs) = [] ∧ decodeGroups (encodeSeq cs) = cs) ∧
  (∀ (cfg : Config) (b : List Byte), decodeErrors cfg b = [] → encodeSeq (decodeGroups b) = b) ∧
  ∀ cs ds : List PulseCommand, encodeSeq (cs ++ ds) = encodeSeq cs ++ encodeSeq ds

/-- 42_sequence.md R82: SEQ.APPEND. With both errors applicable the reported one is a draw. -/
def Obligations.SeqAppendAppendsACopy : Prop :=
  (∀ w : RequestWord, w.extractLsb' 0 4 = 0x9#4 → w.extractLsb' 10 6 = 0 → w.extractLsb' 50 14 = 0 →
    decode (.request w) = .instruction (.seqAppend (w.extractLsb' 6 2))) ∧
  ∀ (rs1 : RegIndex) (s : State),
    (∀ c, s.disposed = false → s.readReg rs1 = some c → s.cfg.cmdlistMax ≠ some s.cmdlist.length →
      exec (.seqAppend rs1) s = .next { s with cmdlist := s.cmdlist ++ [c], history := s.history ++ [.ok .done] }) ∧
    (∀ c, s.disposed = false → s.readReg rs1 = some c → s.cfg.cmdlistMax = some s.cmdlist.length →
      exec (.seqAppend rs1) s = .fault .appendAtCapacity) ∧
    (∀ c, s.disposed = true → s.readReg rs1 = some c →
      exec (.seqAppend rs1) s = .next { s with history := s.history ++ [.error .disposedError] }) ∧
    (s.disposed = false → s.readReg rs1 = none →
      exec (.seqAppend rs1) s = .next { s with history := s.history ++ [.error (.unwritten rs1)] }) ∧
    (s.disposed = true → s.readReg rs1 = none →
      ∃ e draws, (e = .disposedError ∨ e = .unwritten rs1) ∧
        exec (.seqAppend rs1) s = .next { s with history := s.history ++ [.error e], draws := draws })

/-- 42_sequence.md R83: at capacity an error-free SEQ.APPEND has no step; without a bound SEQ.APPEND always has one. -/
def Obligations.AppendAtCapacityIsStuck : Prop :=
  ∀ (rs1 : RegIndex) (s : State),
    (∀ n c, s.cfg.cmdlistMax = some n → s.cmdlist.length = n → s.disposed = false → s.readReg rs1 = some c →
      exec (.seqAppend rs1) s = .fault .appendAtCapacity) ∧
    (s.cfg.cmdlistMax = none → ∃ t, exec (.seqAppend rs1) s = .next t)

/-- 42_sequence.md R84: SEQ.CLEAR; OUTBUF is unchanged. -/
def Obligations.SeqClearEmptiesTheList : Prop :=
  (∀ w : RequestWord, w.extractLsb' 0 4 = 0xA#4 → w.extractLsb' 10 6 = 0 → w.extractLsb' 50 14 = 0 →
    decode (.request w) = .instruction .seqClear) ∧
  ∀ s : State,
    (s.disposed = false →
      exec .seqClear s = .next { s with cmdlist := [], history := s.history ++ [.ok .done] }) ∧
    (s.disposed = true →
      exec .seqClear s = .next { s with history := s.history ++ [.error .disposedError] })

/-- 42_sequence.md R85: SEQ.FORMAT hands over and records the 4n bytes of the whole list, whatever the list holds. -/
def Obligations.SeqFormatEncodesTheWholeList : Prop :=
  (∀ w : RequestWord, w.extractLsb' 0 4 = 0xB#4 → w.extractLsb' 10 6 = 0 → w.extractLsb' 50 14 = 0 →
    decode (.request w) = .instruction .seqFormat) ∧
  ∀ s : State,
    (s.disposed = false →
      ∃ b : List Byte, b = (s.cmdlist.map packBytes).flatten ∧ b.length = 4 * s.cmdlist.length ∧
        exec .seqFormat s = .next { s with outbuf := some b, history := s.history ++ [.ok (.buffer b)] }) ∧
    (s.disposed = true →
      exec .seqFormat s = .next { s with history := s.history ++ [.error .disposedError] })

/-- 42_sequence.md R86: SEQ.PARSE; it is not gated by DISPOSED. -/
def Obligations.SeqParseDecodesTheWholeInput : Prop :=
  (∀ w : RequestWord, w.extractLsb' 0 4 = 0xC#4 → w.extractLsb' 10 6 = 0 → w.extractLsb' 50 14 = 0 →
    decode (.request w) = .instruction .seqParse) ∧
  ∀ s : State,
    (∀ m, s.cfg.parseMaxBytes = some m → m < s.dataIn.length → exec .seqParse s = .fault .parseOverBound) ∧
    ((∀ m, s.cfg.parseMaxBytes = some m → s.dataIn.length ≤ m) →
      (s.dataIn.length % 4 = 0 → (s.cfg.decodeMinPolicy = .accept ∨ ∀ c ∈ decodeGroups s.dataIn, meetsMinimum s.cfg c) →
        exec .seqParse s =
          .next { s with rxseq := some (decodeGroups s.dataIn)
                         history := s.history ++ [.ok (.sequence (decodeGroups s.dataIn))] }) ∧
      (s.dataIn.length % 4 ≠ 0 →
        exec .seqParse s = .next { s with history := s.history ++ [.error (.formatError s.dataIn.length)] }) ∧
      (s.dataIn.length % 4 = 0 → s.cfg.decodeMinPolicy = .reject →
        ∀ c ∈ decodeGroups s.dataIn, ¬ meetsMinimum s.cfg c →
          ∃ draws, exec .seqParse s =
            .next { s with history := s.history ++ [.error (.rangeError ⟨.duration0, .min, 1, 0⟩)], draws := draws }))

/-- 42_sequence.md R87: over PARSE_MAX_BYTES there is no step; without a bound every length is taken. -/
def Obligations.ParseOverBoundIsStuck : Prop :=
  ∀ s : State,
    (∀ m, s.cfg.parseMaxBytes = some m → m < s.dataIn.length → exec .seqParse s = .fault .parseOverBound) ∧
    (s.cfg.parseMaxBytes = none → ∃ t, exec .seqParse s = .next t)

/-- 42_sequence.md R88: SEQ.DISPOSE always succeeds, sets DISPOSED and changes nothing else; a second one changes nothing. -/
def Obligations.SeqDisposeSetsDisposed : Prop :=
  (∀ w : RequestWord, w.extractLsb' 0 4 = 0xD#4 → w.extractLsb' 10 6 = 0 → w.extractLsb' 50 14 = 0 →
    decode (.request w) = .instruction .seqDispose) ∧
  ∀ s : State,
    exec .seqDispose s = .next { s with disposed := true, history := s.history ++ [.ok .done] } ∧
    (s.disposed = true → exec .seqDispose s = .next { s with history := s.history ++ [.ok .done] })

/-- 42_sequence.md R89 with R82: while DISPOSED the gated operations raise an error and change nothing, DisposedError unless SEQ.APPEND
also reads a ⊥ register; every other instruction, SEQ.DISPOSE among them, works as if DISPOSED were false. -/
def Obligations.DisposalGatesTheChannelOperations : Prop :=
  (∀ (i : Instr) (s : State), i.isGated = true → s.disposed = true →
    ∃ e draws, (e = .disposedError ∨ ∃ r, i = .seqAppend r ∧ s.readReg r = none ∧ e = .unwritten r) ∧
      exec i s = .next { s with history := s.history ++ [.error e], draws := draws }) ∧
  ∀ (i : Instr) (s : State), i.isGated = false →
    exec i { s with disposed := true } =
      mapOutcome (fun t => { t with disposed := true }) (exec i { s with disposed := false })

/-- SEQ.PARSE of the buffer SEQ.FORMAT hands over gives CMDLIST back (42_sequence.md R85, R86, R90): the source's
`decode(encode(cmds)) == cmds`, on the machine. -/
def Obligations.ParseOfFormatGivesTheListBack : Prop :=
  ∀ s : State, s.disposed = false →
    (s.cfg.decodeMinPolicy = .accept ∨ ∀ c ∈ s.cmdlist, meetsMinimum s.cfg c) →
    (∀ m, s.cfg.parseMaxBytes = some m → 4 * s.cmdlist.length ≤ m) →
    ∃ t b u, exec .seqFormat s = .next t ∧ t.outbuf = some b ∧ exec .seqParse { t with dataIn := b } = .next u ∧
      u.rxseq = some s.cmdlist ∧ u.outbuf = some b ∧ u.cmdlist = s.cmdlist

/-! ### The whole machine -/

/-- 60_exceptions.md R94: an error response writes no state and delivers no data-out bytes, in any step from any state. The model's
own fields: the request has left the port, and a draw may be counted. -/
def Obligations.ErrorsChangeNoState : Prop :=
  ∀ (s t : State) (item : Presented) (rest : List Presented) (e : Error), s.port = item :: rest → step s = .next t →
    t.history = s.history ++ [.error e] →
    (t.p = s.p ∧ t.cmdlist = s.cmdlist ∧ t.disposed = s.disposed ∧ t.outbuf = s.outbuf ∧ t.rxseq = s.rxseq ∧
      (∀ k, t.outByte k = s.outByte k)) ∧
    t.cfg = s.cfg ∧ t.port = rest ∧ t.dataIn = item.dataIn ∧ (Response.error e).dataOut = none

/-- 60_exceptions.md R97: a request is answered by exactly one response, OK or error, or there is no step, and that only for SEQ.APPEND at
capacity and SEQ.PARSE over the bound. No request is refused. -/
def Obligations.EveryRequestIsAnsweredOrStuck : Prop :=
  ∀ (s : State) (item : Presented) (rest : List Presented), s.port = item :: rest →
    (∃ t r, step s = .next t ∧ t.port = rest ∧ t.history = s.history ++ [r]) ∨
    (step s = .fault .appendAtCapacity ∧ (∃ r, decode item.word = .instruction (.seqAppend r)) ∧
      s.cfg.cmdlistMax = some s.cmdlist.length) ∨
    (step s = .fault .parseOverBound ∧ decode item.word = .instruction .seqParse ∧
      ∃ m, s.cfg.parseMaxBytes = some m ∧ m < item.dataIn.length)

/-- 60_exceptions.md R91: the status codes, and which instruction raises which error, with its cause and its info record (`mayRaise`;
for a RangeError `rangeCause`: the record is the answer of a check of the instruction's own operands, or of what it decodes).
R91's column "raised by" lists requests; that a pulse word can raise RangeError is the model's reading (notes/assumptions/1.md). -/
def Obligations.ErrorsComeFromTheirCauses : Prop :=
  ((∀ r, (Response.ok r).status = 0) ∧ (∀ i, (Response.error (.rangeError i)).status = 1) ∧
    (∀ n, (Response.error (.formatError n)).status = 2) ∧ (Response.error .disposedError).status = 3 ∧
    (∀ w, (Response.error (.illegalOp w)).status = 4) ∧ ∀ r, (Response.error (.unwritten r)).status = 5) ∧
  ∀ (i : Instr) (s t : State) (e : Error), exec i s = .next t → t.history = s.history ++ [.error e] → mayRaise i s e

/-- 10_state.md R15 and 40_pulse_command.md R71: a register changes only under an instruction that names it as its destination;
writing it changes no other register and no element of CMDLIST. -/
def Obligations.OnlyTheDestinationRegisterChanges : Prop :=
  ∀ (i : Instr) (s t : State), exec i s = .next t →
    (∀ r, i.writesReg ≠ some r → t.readReg r = s.readReg r) ∧
    (∀ rd, i.writesReg = some rd → t.cmdlist = s.cmdlist ∧ t.outbuf = s.outbuf ∧ t.rxseq = s.rxseq ∧ t.disposed = s.disposed)

/-- 10_state.md R23 to R26 and R21: only SEQ.APPEND and SEQ.CLEAR change CMDLIST, only SEQ.DISPOSE changes DISPOSED, only SEQ.FORMAT
changes OUTBUF (and so any of its bytes), only SEQ.PARSE changes RXSEQ, and nothing changes the configuration or the port. -/
def Obligations.EachStateElementHasItsWriters : Prop :=
  ∀ (i : Instr) (s t : State), exec i s = .next t →
    ((∀ r, i ≠ .seqAppend r) → i ≠ .seqClear → t.cmdlist = s.cmdlist) ∧
    (i ≠ .seqDispose → t.disposed = s.disposed) ∧
    (i ≠ .seqFormat → t.outbuf = s.outbuf ∧ ∀ k, t.outByte k = s.outByte k) ∧
    (i ≠ .seqParse → t.rxseq = s.rxseq) ∧
    t.cfg = s.cfg ∧ t.port = s.port ∧ t.dataIn = s.dataIn

/-- 10_state.md R24: DISPOSED becomes true by SEQ.DISPOSE only, and is true forever after. -/
def Obligations.DisposedIsForever : Prop :=
  (∀ cfg, (State.resetWith cfg).disposed = false) ∧
  ∀ s t : State, step s = .next t →
    (t.disposed = true ↔ s.disposed = true ∨
      ∃ item rest, s.port = item :: rest ∧ decode item.word = .instruction .seqDispose)

/-- 10_state.md R17: a register can come to hold a d0 below MIN_DURATION0 only by PC.UNPACK under `DECODE_MIN_POLICY = accept`; else the
value it holds came from the same register, which held it already. -/
def Obligations.BelowMinimumOnlyByAcceptedUnpack : Prop :=
  ∀ (i : Instr) (s t : State) (r : RegIndex) (c : PulseCommand), exec i s = .next t → t.readReg r = some c →
    ¬ meetsMinimum s.cfg c →
    (∃ c', s.readReg r = some c' ∧ c'.d0 = c.d0) ∨
    (s.cfg.decodeMinPolicy = .accept ∧ ∃ w, i = .pcUnpack r w ∧ c = unpack w)

/-- The machine's invariant is kept by every step from every state that has it (10_state.md R17, R23; 00_scope.md R13;
42_sequence.md R83, R87). -/
def Obligations.EveryStepKeepsTheInvariant : Prop :=
  ∀ s t : State, s.Inv → step s = .next t → t.Inv

/-- The invariant holds after reset, under every configuration. -/
def Obligations.ResetEstablishesTheInvariant : Prop :=
  ∀ cfg : Config, (State.resetWith cfg).Inv

/-- 70_reset_and_hazards.md R108 and 10_state.md R30: the reset value of every state element, under every configuration (R109).
That the model's reset state is one of these is the last clause. -/
def Obligations.ResetPutsEveryElementAtItsValue : Prop :=
  (∀ cfg : Config,
    (∀ r : RegIndex, (State.resetWith cfg).readReg r = none) ∧ (State.resetWith cfg).cmdlist = [] ∧
    (State.resetWith cfg).disposed = false ∧ (State.resetWith cfg).outbuf = none ∧ (State.resetWith cfg).rxseq = none ∧
    (State.resetWith cfg).cfg = cfg) ∧
  ∃ cfg, State.reset = State.resetWith cfg

/-- 10_state.md R22 and 60_exceptions.md R96: no operation can read an earlier response. The outcome is the same whatever responses
stand in the history, but for that prefix of the history itself. -/
def Obligations.EarlierResponsesHaveNoInfluence : Prop :=
  ∀ (i : Instr) (s : State) (earlier : List Response),
    exec i { s with history := earlier ++ s.history } =
      mapOutcome (fun t => { t with history := earlier ++ t.history }) (exec i s)
end

