-- ==== Sys2Proof/Laws/State.lean ====
section
/-! SUPPORT. The small lemmas of the state's updates, one for each field and update, and of reading a register after a write. -/

namespace Sys2Proof.Machine

@[simp] theorem respond_p (s : State) (r : Response) : (s.respond r).p = s.p := rfl
@[simp] theorem respond_cmdlist (s : State) (r : Response) : (s.respond r).cmdlist = s.cmdlist := rfl
@[simp] theorem respond_disposed (s : State) (r : Response) : (s.respond r).disposed = s.disposed := rfl
@[simp] theorem respond_outbuf (s : State) (r : Response) : (s.respond r).outbuf = s.outbuf := rfl
@[simp] theorem respond_rxseq (s : State) (r : Response) : (s.respond r).rxseq = s.rxseq := rfl
@[simp] theorem respond_cfg (s : State) (r : Response) : (s.respond r).cfg = s.cfg := rfl
@[simp] theorem respond_port (s : State) (r : Response) : (s.respond r).port = s.port := rfl
@[simp] theorem respond_dataIn (s : State) (r : Response) : (s.respond r).dataIn = s.dataIn := rfl
@[simp] theorem respond_history (s : State) (r : Response) : (s.respond r).history = s.history ++ [r] := rfl
@[simp] theorem respond_draws (s : State) (r : Response) : (s.respond r).draws = s.draws := rfl
@[simp] theorem respond_readReg (s : State) (r : Response) (i : RegIndex) : (s.respond r).readReg i = s.readReg i := rfl

@[simp] theorem writeReg_p (s : State) (i : RegIndex) (c : PulseCommand) :
    (s.writeReg i c).p = s.p.set i.toNat (some c) i.isLt := rfl
@[simp] theorem writeReg_cmdlist (s : State) (i : RegIndex) (c : PulseCommand) : (s.writeReg i c).cmdlist = s.cmdlist := rfl
@[simp] theorem writeReg_disposed (s : State) (i : RegIndex) (c : PulseCommand) : (s.writeReg i c).disposed = s.disposed := rfl
@[simp] theorem writeReg_outbuf (s : State) (i : RegIndex) (c : PulseCommand) : (s.writeReg i c).outbuf = s.outbuf := rfl
@[simp] theorem writeReg_rxseq (s : State) (i : RegIndex) (c : PulseCommand) : (s.writeReg i c).rxseq = s.rxseq := rfl
@[simp] theorem writeReg_cfg (s : State) (i : RegIndex) (c : PulseCommand) : (s.writeReg i c).cfg = s.cfg := rfl
@[simp] theorem writeReg_port (s : State) (i : RegIndex) (c : PulseCommand) : (s.writeReg i c).port = s.port := rfl
@[simp] theorem writeReg_dataIn (s : State) (i : RegIndex) (c : PulseCommand) : (s.writeReg i c).dataIn = s.dataIn := rfl
@[simp] theorem writeReg_history (s : State) (i : RegIndex) (c : PulseCommand) : (s.writeReg i c).history = s.history := rfl
@[simp] theorem writeReg_draws (s : State) (i : RegIndex) (c : PulseCommand) : (s.writeReg i c).draws = s.draws := rfl

@[simp] theorem accept_p (s : State) (it : Presented) (r : List Presented) : (s.accept it r).p = s.p := rfl
@[simp] theorem accept_cmdlist (s : State) (it : Presented) (r : List Presented) : (s.accept it r).cmdlist = s.cmdlist := rfl
@[simp] theorem accept_disposed (s : State) (it : Presented) (r : List Presented) : (s.accept it r).disposed = s.disposed := rfl
@[simp] theorem accept_outbuf (s : State) (it : Presented) (r : List Presented) : (s.accept it r).outbuf = s.outbuf := rfl
@[simp] theorem accept_rxseq (s : State) (it : Presented) (r : List Presented) : (s.accept it r).rxseq = s.rxseq := rfl
@[simp] theorem accept_cfg (s : State) (it : Presented) (r : List Presented) : (s.accept it r).cfg = s.cfg := rfl
@[simp] theorem accept_port (s : State) (it : Presented) (r : List Presented) : (s.accept it r).port = r := rfl
@[simp] theorem accept_dataIn (s : State) (it : Presented) (r : List Presented) : (s.accept it r).dataIn = it.dataIn := rfl
@[simp] theorem accept_history (s : State) (it : Presented) (r : List Presented) : (s.accept it r).history = s.history := rfl
@[simp] theorem accept_draws (s : State) (it : Presented) (r : List Presented) : (s.accept it r).draws = s.draws := rfl
@[simp] theorem accept_readReg (s : State) (it : Presented) (r : List Presented) (i : RegIndex) :
    (s.accept it r).readReg i = s.readReg i := rfl

/-- A register is read from the register file alone. -/
theorem readReg_congr {s t : State} (h : t.p = s.p) (i : RegIndex) : t.readReg i = s.readReg i := by
  simp [State.readReg, h]

/-- Reading the register just written. -/
@[simp] theorem readReg_writeReg_same (s : State) (i : RegIndex) (c : PulseCommand) :
    (s.writeReg i c).readReg i = some c := by
  simp [State.readReg]

/-- A write leaves every other register alone (40_pulse_command.md R71). -/
theorem readReg_writeReg_ne (s : State) {i j : RegIndex} (c : PulseCommand) (h : j ≠ i) :
    (s.writeReg i c).readReg j = s.readReg j := by
  have : i.toNat ≠ j.toNat := fun e => h (BitVec.eq_of_toNat_eq e.symm)
  simp [State.readReg, this]

/-- Reading a register after a write, in one equation. -/
theorem readReg_writeReg (s : State) (i j : RegIndex) (c : PulseCommand) :
    (s.writeReg i c).readReg j = if j = i then some c else s.readReg j := by
  split
  · next h => simp [h]
  · next h => exact readReg_writeReg_ne s c h

/-- After reset no register has been written (10_state.md R18). -/
@[simp] theorem resetWith_readReg (cfg : Config) (i : RegIndex) : (State.resetWith cfg).readReg i = none := by
  have h : ∀ j : RegIndex, (#v[none, none, none, none] : Vector (Option PulseCommand) 4)[j.toNat]'j.isLt = none := by decide
  exact h i

end Sys2Proof.Machine
end

