-- ==== Sys2Proof/Laws/Ops.lean ====
section
/-! SUPPORT. What each shared operation can do, said once, for proofs to cite instead of unfolding it. -/

namespace Sys2Proof.Machine

/-- A draw gives an element of its set (00_scope.md section 4). -/
theorem draw_mem (k : Nat) (e : Error) (es : List Error) : draw k e es ∈ e :: es := by
  have h : Config.freeChoice k % (es.length + 1) < (e :: es).length := Nat.mod_lt _ (Nat.succ_pos _)
  simp only [draw, List.getD_eq_getElem?_getD, List.getElem?_eq_getElem h, Option.getD_some]
  exact List.getElem_mem h

/-- With no error applicable the operation goes on. -/
@[simp] theorem guardErrors_nil (s : State) (k : Outcome) : guardErrors [] s k = k := rfl

/-- With one error applicable, that one is raised and nothing is drawn. -/
@[simp] theorem guardErrors_singleton (e : Error) (s : State) (k : Outcome) : guardErrors [e] s k = raise e s := by
  simp [guardErrors]

/-- All that guarding can do: go on when no error applies, and otherwise raise one that does, writing nothing else. -/
theorem guardErrors_cases (es : List Error) (s : State) (k : Outcome) :
    (es = [] ∧ guardErrors es s k = k) ∨
    ∃ e ∈ es, ∃ d, guardErrors es s k = .next { s with history := s.history ++ [.error e], draws := d } := by
  have hmem : ∀ e, e ∈ es.dedup ↔ e ∈ es := fun e => List.mem_dedup
  unfold guardErrors
  split
  · next h => exact .inl ⟨List.eq_nil_iff_forall_not_mem.2 fun e he => by simpa [h] using (hmem e).2 he, rfl⟩
  · next e h => exact .inr ⟨e, (hmem e).1 (by simp [h]), s.draws, rfl⟩
  · next e es' _ h =>
    exact .inr ⟨_, (hmem _).1 (h ▸ draw_mem s.draws e es'), s.draws + 1, rfl⟩

/-- When every applicable error is the same one, it is raised and nothing is drawn. -/
theorem guardErrors_same {es : List Error} {e : Error} (hne : es ≠ []) (h : ∀ x ∈ es, x = e) (s : State) (k : Outcome) :
    guardErrors es s k = raise e s := by
  have hd : es.dedup = [e] := by
    have h1 : ∀ x ∈ es.dedup, x = e := fun x hx => h x (List.mem_dedup.1 hx)
    have h2 : es.dedup.Nodup := List.nodup_dedup es
    have h3 : es.dedup ≠ [] := fun h0 => hne ((List.dedup_eq_nil es).1 h0)
    rcases hl : es.dedup with _ | ⟨a, _ | ⟨b, l⟩⟩
    · exact absurd hl h3
    · rw [hl] at h1
      simp [h1 a (by simp)]
    · rw [hl] at h1 h2
      simp [h1 a (by simp), h1 b (by simp)] at h2
  simp [guardErrors, hd]

/-- All that reading an operand register can do (10_state.md R18). -/
theorem withReg_cases (i : RegIndex) (s : State) (k : PulseCommand → Outcome) :
    (s.readReg i = none ∧ withReg i s k = .next { s with history := s.history ++ [.error (.unwritten i)] }) ∨
    ∃ c, s.readReg i = some c ∧ withReg i s k = k c := by
  rcases h : s.readReg i with _ | c
  · exact .inl ⟨rfl, by simp [withReg, h, raise, State.respond]⟩
  · exact .inr ⟨c, rfl, by simp [withReg, h]⟩

/-- Ending with a result. -/
theorem finish_eq (r : Result) (s : State) : finish r s = .next { s with history := s.history ++ [.ok r] } := rfl

/-- Raising an error writes the response alone (60_exceptions.md R94). -/
theorem raise_eq (e : Error) (s : State) : raise e s = .next { s with history := s.history ++ [.error e] } := rfl

/-- What stands among the Unwritten errors. -/
theorem mem_unwrittenErrors {s : State} {is : List RegIndex} {e : Error} :
    e ∈ unwrittenErrors s is ↔ ∃ i ∈ is, s.readReg i = none ∧ e = .unwritten i := by
  simp only [unwrittenErrors, List.mem_map, List.mem_filter, Option.isNone_iff_eq_none]
  constructor
  · rintro ⟨i, ⟨hi, hn⟩, rfl⟩
    exact ⟨i, hi, hn, rfl⟩
  · rintro ⟨i, hi, hn, rfl⟩
    exact ⟨i, ⟨hi, hn⟩, rfl⟩

/-- What stands among the disposal errors. -/
theorem mem_disposedErrors {s : State} {e : Error} : e ∈ disposedErrors s ↔ s.disposed = true ∧ e = .disposedError := by
  unfold disposedErrors
  split <;> simp_all

/-- What stands among the RangeErrors of some checks. -/
theorem mem_rangeErrors {checks : List (Option RangeErrorInfo)} {e : Error} :
    e ∈ rangeErrors checks ↔ ∃ info, some info ∈ checks ∧ e = .rangeError info := by
  simp only [rangeErrors, List.mem_filterMap]
  constructor
  · rintro ⟨_ | info, h, he⟩
    · simp at he
    · exact ⟨info, h, by simpa using he.symm⟩
  · rintro ⟨info, h, rfl⟩
    exact ⟨some info, h, rfl⟩

/-- A check that passes leaves no error; one that fails leaves its own. -/
@[simp] theorem rangeErrors_none (l : List (Option RangeErrorInfo)) : rangeErrors (none :: l) = rangeErrors l := rfl
@[simp] theorem rangeErrors_some (i : RangeErrorInfo) (l : List (Option RangeErrorInfo)) :
    rangeErrors (some i :: l) = .rangeError i :: rangeErrors l := rfl
@[simp] theorem rangeErrors_nil : rangeErrors [] = [] := rfl

end Sys2Proof.Machine
end

