-- ==== Sys2Proof/Laws/Memory.lean ====
section
/-! SUPPORT. The form of the output buffer: everything that writes OUTBUF keeps it, and reset has it (20_memory.md R36). -/

namespace Sys2Proof.Machine

/-- A command takes four bytes (00_scope.md R13). -/
@[simp] theorem packBytes_length (c : PulseCommand) : (packBytes c).length = 4 := rfl

@[simp] theorem encodeSeq_nil : encodeSeq [] = [] := rfl

@[simp] theorem encodeSeq_cons (c : PulseCommand) (cs : List PulseCommand) :
    encodeSeq (c :: cs) = packBytes c ++ encodeSeq cs := rfl

/-- The buffer of a sequence has whole groups. -/
theorem memory_wf_encodeSeq (cs : List PulseCommand) : Memory.wf (some (encodeSeq cs)) = true := by
  have h : (encodeSeq cs).length % 4 = 0 := by
    induction cs with
    | nil => rfl
    | cons c cs ih => simp only [encodeSeq_cons, List.length_append, packBytes_length]; omega
  simp [Memory.wf, h]

/-- SEQ.FORMAT, the one writer of OUTBUF (10_state.md R27), leaves it in form. -/
theorem memory_wf_execSeqFormat {s t : State} (hs : Memory.wf s.outbuf = true) (h : execSeqFormat s = .next t) :
    Memory.wf t.outbuf = true := by
  rcases guardErrors_cases (disposedErrors s) s
      (finish (.buffer (encodeSeq s.cmdlist)) { s with outbuf := some (encodeSeq s.cmdlist) }) with ⟨-, e⟩ | ⟨_, -, _, e⟩
  · rw [execSeqFormat, e, finish_eq] at h
    cases h
    exact memory_wf_encodeSeq s.cmdlist
  · rw [execSeqFormat, e] at h
    cases h
    exact hs

/-- Writing a register, responding and taking a request leave the buffer in form. -/
theorem memory_wf_ops (s : State) (i : RegIndex) (c : PulseCommand) (r : Response) (it : Presented) (l : List Presented)
    (hs : Memory.wf s.outbuf = true) :
    Memory.wf (s.writeReg i c).outbuf = true ∧ Memory.wf (s.respond r).outbuf = true ∧
      Memory.wf (s.accept it l).outbuf = true :=
  ⟨hs, hs, hs⟩

/-- Reset has the form. -/
theorem memory_wf_reset : Memory.wf State.reset.outbuf = true := rfl

end Sys2Proof.Machine
end

