-- ==== Sys2Proof/Laws/PerInstr.lean ====
section
/-! SUPPORT. The encoder against spec/opcode_table.json, one lemma for each constructor: the word of an instruction shows the
row's `match` under the row's `mask`. -/

namespace Sys2Proof

/-- A request row's word: `op`, `res0` and `res1` are what the table's mask 0xFFFC00000000FC0F covers. -/
theorem requestWord_masked (lb la : Bool) (b a : Operand) (rs2 rs1 rd : RegIndex) (op : BitVec 4) :
    requestWord lb la b a rs2 rs1 rd op &&& 0xFFFC00000000FC0F#64 = op.setWidth 64 := by
  unfold requestWord
  apply BitVec.eq_of_getLsbD_eq
  intro i hi
  interval_cases i <;> simp

/-- A reserved row's word: the table's mask 0xF covers `op` alone. -/
theorem reservedWord_masked (rest : BitVec 60) (op : BitVec 4) : reservedWord rest op &&& 0xF#64 = op.setWidth 64 := by
  unfold reservedWord
  apply BitVec.eq_of_getLsbD_eq
  intro i hi
  interval_cases i <;> simp

/-- A request word shows `m` under the mask `k`. -/
def PortWord.shows (p : PortWord) (k m : RequestWord) : Prop :=
  match p with
  | .request w => w &&& k = m
  | .wire w => w.setWidth 64 &&& k = m

namespace Laws.TableMatch

/-- The table's mask and match of an instruction's row. -/
def Statement : Instr → Prop
  | .pcNew rd a la b lb => (encode (.pcNew rd a la b lb)).shows 0xFFFC00000000FC0F#64 0x0
  | .pcSetD0 rd a => (encode (.pcSetD0 rd a)).shows 0xFFFC00000000FC0F#64 0x1
  | .pcSetD1 rd a => (encode (.pcSetD1 rd a)).shows 0xFFFC00000000FC0F#64 0x2
  | .pcSetL0 rd la => (encode (.pcSetL0 rd la)).shows 0xFFFC00000000FC0F#64 0x3
  | .pcSetL1 rd la => (encode (.pcSetL1 rd la)).shows 0xFFFC00000000FC0F#64 0x4
  | .pcGet rs1 => (encode (.pcGet rs1)).shows 0xFFFC00000000FC0F#64 0x5
  | .pcEq rs1 rs2 => (encode (.pcEq rs1 rs2)).shows 0xFFFC00000000FC0F#64 0x6
  | .pcPack rs1 => (encode (.pcPack rs1)).shows 0xFFFC00000000FC0F#64 0x7
  | .pcUnpack rd w => (encode (.pcUnpack rd w)).shows 0xFFFC00000000FC0F#64 0x8
  | .seqAppend rs1 => (encode (.seqAppend rs1)).shows 0xFFFC00000000FC0F#64 0x9
  | .seqClear => (encode .seqClear).shows 0xFFFC00000000FC0F#64 0xA
  | .seqFormat => (encode .seqFormat).shows 0xFFFC00000000FC0F#64 0xB
  | .seqParse => (encode .seqParse).shows 0xFFFC00000000FC0F#64 0xC
  | .seqDispose => (encode .seqDispose).shows 0xFFFC00000000FC0F#64 0xD
  | .reservedE rest => (encode (.reservedE rest)).shows 0xF#64 0xE
  | .reservedF rest => (encode (.reservedF rest)).shows 0xF#64 0xF
  | .pulse d0 l0 d1 l1 => (encode (.pulse d0 l0 d1 l1)).shows 0x0#64 0x0

theorem pcNew (rd : RegIndex) (a : Operand) (la : Bool) (b : Operand) (lb : Bool) : Statement (.pcNew rd a la b lb) :=
  requestWord_masked ..
theorem pcSetD0 (rd : RegIndex) (a : Operand) : Statement (.pcSetD0 rd a) := requestWord_masked ..
theorem pcSetD1 (rd : RegIndex) (a : Operand) : Statement (.pcSetD1 rd a) := requestWord_masked ..
theorem pcSetL0 (rd : RegIndex) (la : Bool) : Statement (.pcSetL0 rd la) := requestWord_masked ..
theorem pcSetL1 (rd : RegIndex) (la : Bool) : Statement (.pcSetL1 rd la) := requestWord_masked ..
theorem pcGet (rs1 : RegIndex) : Statement (.pcGet rs1) := requestWord_masked ..
theorem pcEq (rs1 rs2 : RegIndex) : Statement (.pcEq rs1 rs2) := requestWord_masked ..
theorem pcPack (rs1 : RegIndex) : Statement (.pcPack rs1) := requestWord_masked ..
theorem pcUnpack (rd : RegIndex) (w : PulseWord) : Statement (.pcUnpack rd w) := requestWord_masked ..
theorem seqAppend (rs1 : RegIndex) : Statement (.seqAppend rs1) := requestWord_masked ..
theorem seqClear : Statement .seqClear := requestWord_masked ..
theorem seqFormat : Statement .seqFormat := requestWord_masked ..
theorem seqParse : Statement .seqParse := requestWord_masked ..
theorem seqDispose : Statement .seqDispose := requestWord_masked ..
theorem reservedE (rest : BitVec 60) : Statement (.reservedE rest) := reservedWord_masked rest 0xE
theorem reservedF (rest : BitVec 60) : Statement (.reservedF rest) := reservedWord_masked rest 0xF
theorem pulse (d0 : Duration) (l0 : Bool) (d1 : Duration) (l1 : Bool) : Statement (.pulse d0 l0 d1 l1) := by
  simp [Statement, encode, PortWord.shows]

end Laws.TableMatch

end Sys2Proof
end

