-- ==== Sys2Proof/Laws/Encoding.lean ====
section
/-! SUPPORT. Where the encoder puts each field: one lemma for each field of a request word, of a reserved word and of a pulse word
(30_encoding.md R47, R52). -/

namespace Sys2Proof

section
variable (lb la : Bool) (b a : Operand) (rs2 rs1 rd : RegIndex) (op : BitVec 4)

@[simp] theorem opField_requestWord : opField (requestWord lb la b a rs2 rs1 rd op) = op := by
  unfold opField requestWord
  apply BitVec.eq_of_getLsbD_eq
  intro i hi
  interval_cases i <;> simp

@[simp] theorem rdField_requestWord : rdField (requestWord lb la b a rs2 rs1 rd op) = rd := by
  unfold rdField requestWord
  apply BitVec.eq_of_getLsbD_eq
  intro i hi
  interval_cases i <;> simp

@[simp] theorem rs1Field_requestWord : rs1Field (requestWord lb la b a rs2 rs1 rd op) = rs1 := by
  unfold rs1Field requestWord
  apply BitVec.eq_of_getLsbD_eq
  intro i hi
  interval_cases i <;> simp

@[simp] theorem rs2Field_requestWord : rs2Field (requestWord lb la b a rs2 rs1 rd op) = rs2 := by
  unfold rs2Field requestWord
  apply BitVec.eq_of_getLsbD_eq
  intro i hi
  interval_cases i <;> simp

@[simp] theorem res0Field_requestWord : res0Field (requestWord lb la b a rs2 rs1 rd op) = 0 := by
  unfold res0Field requestWord
  apply BitVec.eq_of_getLsbD_eq
  intro i hi
  interval_cases i <;> simp

@[simp] theorem aField_requestWord : aField (requestWord lb la b a rs2 rs1 rd op) = a := by
  unfold aField requestWord
  apply BitVec.eq_of_getLsbD_eq
  intro i hi
  interval_cases i <;> simp

@[simp] theorem bField_requestWord : bField (requestWord lb la b a rs2 rs1 rd op) = b := by
  unfold bField requestWord
  apply BitVec.eq_of_getLsbD_eq
  intro i hi
  interval_cases i <;> simp

@[simp] theorem laField_requestWord : laField (requestWord lb la b a rs2 rs1 rd op) = la := by
  simp [laField, requestWord]

@[simp] theorem lbField_requestWord : lbField (requestWord lb la b a rs2 rs1 rd op) = lb := by
  simp [lbField, requestWord]

@[simp] theorem res1Field_requestWord : res1Field (requestWord lb la b a rs2 rs1 rd op) = 0 := by
  unfold res1Field requestWord
  apply BitVec.eq_of_getLsbD_eq
  intro i hi
  interval_cases i <;> simp

end

@[simp] theorem opField_reservedWord (rest : BitVec 60) (op : BitVec 4) : opField (reservedWord rest op) = op := by
  unfold opField reservedWord
  apply BitVec.eq_of_getLsbD_eq
  intro i hi
  interval_cases i <;> simp

@[simp] theorem restField_reservedWord (rest : BitVec 60) (op : BitVec 4) : restField (reservedWord rest op) = rest := by
  unfold restField reservedWord
  apply BitVec.eq_of_getLsbD_eq
  intro i hi
  interval_cases i <;> simp

/-- The bits of a pulse word, by the table of 30_encoding.md R47. -/
theorem getLsbD_pulseWord (d0 : Duration) (l0 : Bool) (d1 : Duration) (l1 : Bool) (i : Nat) :
    (pulseWord d0 l0 d1 l1).getLsbD i =
      if i < 15 then d0.getLsbD i
      else if i < 16 then (bool2bit l0).getLsbD (i - 15)
      else if i < 31 then d1.getLsbD (i - 16)
      else (bool2bit l1).getLsbD (i - 31) := by
  unfold pulseWord
  rw [BitVec.getLsbD_append, BitVec.getLsbD_append, BitVec.getLsbD_append]
  simp only [Nat.sub_sub]
  by_cases h0 : i < 15
  · simp [h0]
  · by_cases h1 : i < 16
    · simp [h0, h1, show i - 15 < 1 by omega]
    · by_cases h2 : i < 31
      · simp [h0, h1, h2, show ¬ i - 15 < 1 by omega, show i - 16 < 15 by omega]
      · simp [h0, h1, h2, show ¬ i - 15 < 1 by omega, show ¬ i - 16 < 15 by omega]

end Sys2Proof
end

