-- ==== Sys2Proof/Laws/Exec.lean ====
section
/-! SUPPORT. What executing an instruction can do, said once: every outcome of `exec` is one of nine. Claims about all instructions
go through `exec_cases`. -/

namespace Sys2Proof.Machine

/-- The value a register write may store, as 10_state.md R17 allows it. -/
def Storable (i : Instr) (s : State) (rd : RegIndex) (c : PulseCommand) : Prop :=
  meetsMinimum s.cfg c ∨ (∃ c', s.readReg rd = some c' ∧ c'.d0 = c.d0) ∨
    (s.cfg.decodeMinPolicy = .accept ∧ ∃ w, i = .pcUnpack rd w ∧ c = unpack w)

/-- The outcomes of an instruction. -/
inductive Outcomes (i : Instr) (s : State) : Outcome → Prop where
  | error (e : Error) (d : Nat) (h : mayRaise i s e) :
      Outcomes i s (.next { s with history := s.history ++ [.error e], draws := d })
  | answer (r : Result) : Outcomes i s (.next { s with history := s.history ++ [.ok r] })
  | write (rd : RegIndex) (c : PulseCommand) (h : i.writesReg = some rd) (hc : Storable i s rd c) :
      Outcomes i s (.next ((s.writeReg rd c).respond (.ok .done)))
  | append (r : RegIndex) (c : PulseCommand) (hi : i = .seqAppend r) (hd : s.disposed = false) (hc : s.readReg r = some c)
      (hm : s.cfg.cmdlistMax ≠ some s.cmdlist.length) :
      Outcomes i s (.next { s with cmdlist := s.cmdlist ++ [c], history := s.history ++ [.ok .done] })
  | full (r : RegIndex) (hi : i = .seqAppend r) (hm : s.cfg.cmdlistMax = some s.cmdlist.length) :
      Outcomes i s (.fault .appendAtCapacity)
  | clear (hi : i = .seqClear) : Outcomes i s (.next { s with cmdlist := [], history := s.history ++ [.ok .done] })
  | format (hi : i = .seqFormat) :
      Outcomes i s (.next { s with outbuf := some (encodeSeq s.cmdlist),
                                   history := s.history ++ [.ok (.buffer (encodeSeq s.cmdlist))] })
  | parse (hi : i = .seqParse) (hb : overParseBound s = false) (he : decodeErrors s.cfg s.dataIn = []) :
      Outcomes i s (.next { s with rxseq := some (decodeGroups s.dataIn),
                                   history := s.history ++ [.ok (.sequence (decodeGroups s.dataIn))] })
  | long (hi : i = .seqParse) (hb : overParseBound s = true) : Outcomes i s (.fault .parseOverBound)
  | dispose (hi : i = .seqDispose) :
      Outcomes i s (.next { s with disposed := true, history := s.history ++ [.ok .done] })

/-- `checkD0` passes only what meets the minimum (40_pulse_command.md R61). -/
theorem meetsMinimum_of_checkD0 {cfg : Config} {a : Operand} (h : checkD0 cfg a = none) (l0 : Bool) (d1 : Duration) (l1 : Bool) :
    meetsMinimum cfg ⟨duration a, l0, d1, l1⟩ := by
  unfold checkD0 at h
  split at h
  · cases h
  · next h1 =>
    split at h
    · cases h
    · next h2 =>
      have ha : a.toNat ≤ 32767 := by simpa [durationMax, BitVec.lt_def] using h1
      have hz : zext16 (duration a) = a := by
        apply BitVec.eq_of_toNat_eq
        simp only [zext16, duration, BitVec.toNat_setWidth, BitVec.extractLsb'_toNat, Nat.shiftRight_zero]
        omega
      simpa [meetsMinimum, hz] using h2

/-- `decodeCheck` passes a command exactly when the policy accepts it or it meets the minimum (41_pack_unpack.md R77). -/
theorem decodeCheck_eq_none {cfg : Config} {c : PulseCommand} :
    decodeCheck cfg c = none ↔ cfg.decodeMinPolicy = .accept ∨ meetsMinimum cfg c := by
  unfold decodeCheck meetsMinimum
  rcases cfg.decodeMinPolicy <;> simp

/-- Guarding with errors the instruction may raise leaves only the case without error. -/
theorem Outcomes.guard {i : Instr} {s : State} {es : List Error} {k : Outcome} (he : ∀ e ∈ es, mayRaise i s e)
    (hk : es = [] → Outcomes i s k) : Outcomes i s (guardErrors es s k) := by
  rcases guardErrors_cases es s k with ⟨h, e⟩ | ⟨x, hx, d, e⟩
  · rw [e]
    exact hk h
  · rw [e]
    exact .error x d (he x hx)

/-- Reading a register the instruction reads leaves only the case with a command. -/
theorem Outcomes.reg {i : Instr} {s : State} {r : RegIndex} {k : PulseCommand → Outcome} (hr : r ∈ i.readsRegs)
    (hk : ∀ c, s.readReg r = some c → Outcomes i s (k c)) : Outcomes i s (withReg r s k) := by
  rcases withReg_cases r s k with ⟨h, e⟩ | ⟨c, h, e⟩
  · rw [e]
    exact .error (.unwritten r) s.draws ⟨hr, h⟩
  · rw [e]
    exact hk c h

/-- RangeErrors of checks whose failures are causes are among those of the instruction. -/
theorem mayRaise_rangeErrors {i : Instr} {s : State} {checks : List (Option RangeErrorInfo)}
    (hi : ∀ info, some info ∈ checks → rangeCause i s info) : ∀ e ∈ rangeErrors checks, mayRaise i s e := by
  intro e he
  obtain ⟨info, hc, rfl⟩ := mem_rangeErrors.1 he
  exact hi info hc

/-- The same for an instruction with one check. -/
theorem mayRaise_rangeError {i : Instr} {s : State} {check : Option RangeErrorInfo}
    (hi : ∀ info, check = some info → rangeCause i s info) : ∀ e ∈ rangeErrors [check], mayRaise i s e :=
  mayRaise_rangeErrors fun info h => hi info (List.mem_singleton.1 h).symm

/-- Unwritten errors are among those of an instruction that reads the registers. -/
theorem mayRaise_unwrittenErrors {i : Instr} {s : State} {is : List RegIndex} (hi : ∀ r ∈ is, r ∈ i.readsRegs) :
    ∀ e ∈ unwrittenErrors s is, mayRaise i s e := by
  intro e he
  obtain ⟨r, hr, hn, rfl⟩ := mem_unwrittenErrors.1 he
  exact ⟨hi r hr, hn⟩

/-- DisposedError is among those of a gated instruction. -/
theorem mayRaise_disposedErrors {i : Instr} {s : State} (hi : i.isGated = true) : ∀ e ∈ disposedErrors s, mayRaise i s e := by
  intro e he
  obtain ⟨hd, rfl⟩ := mem_disposedErrors.1 he
  exact ⟨hi, hd⟩

/-- Checks that leave no error have all passed. -/
theorem eq_none_of_rangeErrors {checks : List (Option RangeErrorInfo)} (h : rangeErrors checks = []) :
    ∀ c ∈ checks, c = none := by
  rintro (_ | info) hc
  · rfl
  · have : Error.rangeError info ∈ rangeErrors checks := mem_rangeErrors.2 ⟨info, hc, rfl⟩
    simp [h] at this

/-- Every outcome of every instruction. -/
theorem exec_cases (i : Instr) (s : State) : Outcomes i s (exec i s) := by
  cases i with
  | pcNew rd a la b lb =>
    refine .guard (mayRaise_rangeErrors fun info h => ?_) fun h => .write rd _ rfl (.inl ?_)
    · simpa [rangeCause, eq_comm] using h
    · exact meetsMinimum_of_checkD0 (eq_none_of_rangeErrors h _ (by simp)) _ _ _
  | pcSetD0 rd a =>
    refine .reg (by simp [Instr.readsRegs]) fun c _ => .guard (mayRaise_rangeError fun _ h => h) fun h => .write rd _ rfl (.inl ?_)
    exact meetsMinimum_of_checkD0 (eq_none_of_rangeErrors h _ (by simp)) _ _ _
  | pcSetD1 rd a =>
    exact .reg (by simp [Instr.readsRegs]) fun c hc => .guard (mayRaise_rangeError fun _ h => h) fun _ =>
      .write rd _ rfl (.inr (.inl ⟨c, hc, rfl⟩))
  | pcSetL0 rd la =>
    exact .reg (by simp [Instr.readsRegs]) fun c hc => .write rd _ rfl (.inr (.inl ⟨c, hc, rfl⟩))
  | pcSetL1 rd la =>
    exact .reg (by simp [Instr.readsRegs]) fun c hc => .write rd _ rfl (.inr (.inl ⟨c, hc, rfl⟩))
  | pcGet rs1 => exact .reg (by simp [Instr.readsRegs]) fun _ _ => .answer _
  | pcEq rs1 rs2 =>
    exact .guard (mayRaise_unwrittenErrors (by simp [Instr.readsRegs])) fun _ =>
      .reg (by simp [Instr.readsRegs]) fun _ _ => .reg (by simp [Instr.readsRegs]) fun _ _ => .answer _
  | pcPack rs1 => exact .reg (by simp [Instr.readsRegs]) fun _ _ => .answer _
  | pcUnpack rd w =>
    refine .guard (mayRaise_rangeError fun _ h => h) fun h => .write rd _ rfl ?_
    rcases decodeCheck_eq_none.1 (eq_none_of_rangeErrors h _ (List.mem_singleton_self _)) with h | h
    · exact .inr (.inr ⟨h, w, rfl, rfl⟩)
    · exact .inl h
  | seqAppend rs1 =>
    refine .guard ?_ fun h => .reg (by simp [Instr.readsRegs]) fun c hc => ?_
    · intro e he
      rcases List.mem_append.1 he with he | he
      · exact mayRaise_disposedErrors rfl e he
      · exact mayRaise_unwrittenErrors (by simp [Instr.readsRegs]) e he
    · have hd : s.disposed = false := by
        by_contra hd
        have : Error.disposedError ∈ disposedErrors s := mem_disposedErrors.2 ⟨by simpa using hd, rfl⟩
        simp [(List.append_eq_nil_iff.1 h).1] at this
      split
      · next hm => exact .full rs1 rfl (by simpa [atCapacity] using hm)
      · next hm => exact .append rs1 c rfl hd hc (by simpa [atCapacity] using hm)
  | seqClear => exact .guard (mayRaise_disposedErrors rfl) fun _ => .clear rfl
  | seqFormat => exact .guard (mayRaise_disposedErrors rfl) fun _ => .format rfl
  | seqParse =>
    simp only [exec, execSeqParse]
    split
    · next hb => exact .long rfl hb
    · next hb =>
      refine .guard ?_ fun h => .parse rfl (by simpa using hb) h
      intro e he
      unfold decodeErrors at he
      split at he
      · next hl =>
        obtain rfl := List.mem_singleton.1 he
        exact ⟨rfl, rfl, hl⟩
      · next hl =>
        refine mayRaise_rangeErrors (fun info h => ?_) e he
        obtain ⟨c, hc, h⟩ := List.mem_map.1 h
        exact ⟨not_not.1 hl, c, hc, h⟩
  | seqDispose => exact .dispose rfl
  | reservedE rest => exact .error _ s.draws ⟨rfl, rfl⟩
  | reservedF rest => exact .error _ s.draws ⟨rfl, rfl⟩
  | pulse d0 l0 d1 l1 => exact .guard (mayRaise_rangeError fun _ h => h) fun _ => .answer _

end Sys2Proof.Machine
end

