-- ==== Sys2Proof/Tests/Slice0.lean ====
section
/-! SUPPORT. The model's own tests. Expected results are the vectors of 95_test_vectors.md, or are worked by hand from the rule
named; request words are written out from 30_encoding.md R52 and R55. The last part shows, for each statement with hypotheses, a
state and operands that meet them. -/

namespace Sys2Proof.Tests

open Sys2Proof.Machine

/-! ### Helpers -/

/-- The stricter variant, rejecting decoder, a list of at most 2 commands, an input of at most 8 bytes. -/
def strict : Config := ⟨.one, .reject, some 2, some 8⟩

/-- The permissive variant, without bounds. -/
def lax : Config := ⟨.zero, .accept, none, none⟩

/-- Reset, then P0 = (14, T, 12, F), P1 = (100, T, 200, F), P2 = (14, T, 12, F), P3 = ⊥, CMDLIST of one command. -/
def start (cfg : Config) : State :=
  { State.resetWith cfg with
      p := #v[some ⟨14, true, 12, false⟩, some ⟨100, true, 200, false⟩, some ⟨14, true, 12, false⟩, none]
      cmdlist := [⟨14, true, 12, false⟩] }

/-- The response an outcome ends with. -/
def answer : Outcome → Option Response
  | .next t => t.history.getLast?
  | .fault _ => none
  | .refused _ => none

/-- A part of the next state. -/
def after {α : Type} (f : State → α) : Outcome → Option α
  | .next t => some (f t)
  | .fault _ => none
  | .refused _ => none

/-- The reason of a stop. -/
def stop : Outcome → Option Fault
  | .next _ => none
  | .fault r => some r
  | .refused _ => none

/-! ### Well-formedness: each check refuses a term -/

theorem test_wellFormed_refuses_pulse :
    (Instr.pulse 14 true 12 false).isRequest = false ∧ (Instr.pulse 14 true 12 false).wellFormed = false := by decide
theorem test_wellFormed_refuses_reservedE :
    (Instr.reservedE 0).isAssigned = false ∧ (Instr.reservedE 0).wellFormed = false := by decide
theorem test_wellFormed_refuses_reservedF :
    (Instr.reservedF 0).isAssigned = false ∧ (Instr.reservedF 0).wellFormed = false := by decide
theorem test_wellFormed_accepts_operation : (Instr.pcEq 2 3).wellFormed = true := by decide

/-! ### Decoding: one word for each constructor (95_test_vectors.md 2.4 and Part 3, or by R52) -/

theorem test_decode_pcNew : decode (.request 0x0000020801F40010) = .instruction (.pcNew 1 500 false 520 false) := by decide
theorem test_decode_pcNew_levels : decode (.request 0x0001000C000E0000) = .instruction (.pcNew 0 14 true 12 false) := by decide
theorem test_decode_pcSetD0 : decode (.request 0x0000000080000001) = .instruction (.pcSetD0 0 32768) := by decide
theorem test_decode_pcSetD1 : decode (.request 0x0000000000050022) = .instruction (.pcSetD1 2 5) := by decide
theorem test_decode_pcSetL0 : decode (.request 0x0001000000000033) = .instruction (.pcSetL0 3 true) := by decide
theorem test_decode_pcSetL1 : decode (.request 0x0002000000000004) = .instruction (.pcSetL1 0 false) := by decide
theorem test_decode_pcGet : decode (.request 0x0000000000000045) = .instruction (.pcGet 1) := by decide
theorem test_decode_pcEq : decode (.request 0x0000000000000386) = .instruction (.pcEq 2 3) := by decide
theorem test_decode_pcPack : decode (.request 0x0000000000000087) = .instruction (.pcPack 2) := by decide
theorem test_decode_pcUnpack : decode (.request 0x0000000C800E0028) = .instruction (.pcUnpack 2 0x000C800E) := by decide
theorem test_decode_seqAppend : decode (.request 0x0000000000000049) = .instruction (.seqAppend 1) := by decide
theorem test_decode_seqClear : decode (.request 0x000000000000000A) = .instruction .seqClear := by decide
theorem test_decode_seqFormat : decode (.request 0x00000000FFFF000B) = .instruction .seqFormat := by decide
theorem test_decode_seqParse : decode (.request 0x000000000000000C) = .instruction .seqParse := by decide
theorem test_decode_seqDispose : decode (.request 0x000000000000000D) = .instruction .seqDispose := by decide
theorem test_decode_reservedE : decode (.request 0x000000000000001E) = .instruction (.reservedE 1) := by decide
theorem test_decode_reservedF : decode (.request 0x000000000000040F) = .instruction (.reservedF 0x40) := by decide
theorem test_decode_pulse : decode (.wire 0x020801F4) = .instruction (.pulse 500 false 520 false) := by decide
theorem test_decode_rejects_res0 :
    decode (.request 0x000000000000040B) = .rejected (.reservedBits 0x000000000000040B) := by decide
theorem test_decode_rejects_res1 :
    decode (.request 0x0004000000000005) = .rejected (.reservedBits 0x0004000000000005) := by decide
theorem test_tableWord_pulse : decodeTableWord 32 0x000C800E = some (.pulse 14 true 12 false) := by decide
theorem test_tableWord_short : decodeTableWord 8 0xE = some (.reservedE 0) := by decide

/-! ### One step of each instruction -/

theorem test_step_first_instruction_after_reset :
    after (fun t => (t.outbuf, t.history)) (step (State.reset.withFetchWord 64 0xB)) =
      some (some [], [.ok (.buffer [])]) := by decide
theorem test_step_illegal :
    answer (step ((start strict).withFetchWord 64 0x0004000000000005)) =
      some (.error (.illegalOp 0x0004000000000005)) := by decide

theorem test_pcNew_max : after (fun t => t.readReg 3) (exec (.pcNew 3 32767 true 32767 false) (start strict)) =
    some (some ⟨32767, true, 32767, false⟩) := by decide
theorem test_pcNew_min : answer (exec (.pcNew 3 0 true 5 false) (start strict)) =
    some (.error (.rangeError ⟨.duration0, .min, 1, 0⟩)) := by decide
theorem test_pcSetD0_keeps_old : after (fun t => (t.readReg 1, t.history)) (exec (.pcSetD0 1 32768) (start lax)) =
    some (some ⟨100, true, 200, false⟩, [.error (.rangeError ⟨.duration0, .max, 32767, 32768⟩)]) := by decide
theorem test_pcSetD0_unwritten_first : answer (exec (.pcSetD0 3 40000) (start strict)) =
    some (.error (.unwritten 3)) := by decide
theorem test_pcSetD1_zero : after (fun t => t.readReg 1) (exec (.pcSetD1 1 0) (start strict)) =
    some (some ⟨100, true, 0, false⟩) := by decide
theorem test_pcSetL0 : after (fun t => t.readReg 1) (exec (.pcSetL0 1 false) (start strict)) =
    some (some ⟨100, false, 200, false⟩) := by decide
theorem test_pcSetL1 : after (fun t => t.readReg 1) (exec (.pcSetL1 1 true) (start strict)) =
    some (some ⟨100, true, 200, true⟩) := by decide
theorem test_pcGet : answer (exec (.pcGet 0) (start strict)) = some (.ok (.fields 14 true 12 false)) := by decide
theorem test_pcEq_by_value : answer (exec (.pcEq 0 2) (start strict)) = some (.ok (.equal true)) := by decide
theorem test_pcEq_same_unwritten : answer (exec (.pcEq 3 3) (start strict)) = some (.error (.unwritten 3)) := by decide
theorem test_pcPack : answer (exec (.pcPack 0) (start strict)) =
    some (.ok (.packed 0x000C800E [14, 128, 12, 0])) := by decide
theorem test_pcUnpack : after (fun t => t.readReg 3) (exec (.pcUnpack 3 0xDEADBEEF) (start strict)) =
    some (some ⟨16111, true, 24237, true⟩) := by decide
theorem test_pcUnpack_reject : answer (exec (.pcUnpack 3 0x00018000) (start strict)) =
    some (.error (.rangeError ⟨.duration0, .min, 1, 0⟩)) := by decide
theorem test_seqAppend_tail : after (fun t => t.cmdlist) (exec (.seqAppend 1) (start strict)) =
    some [⟨14, true, 12, false⟩, ⟨100, true, 200, false⟩] := by decide
theorem test_seqAppend_full :
    stop (exec (.seqAppend 1) { start strict with cmdlist := [⟨1, true, 1, true⟩, ⟨2, true, 2, true⟩] }) =
      some .appendAtCapacity := by decide
theorem test_seqClear : after (fun t => t.cmdlist) (exec .seqClear (start strict)) = some [] := by decide
theorem test_seqFormat :
    after (fun t => t.outbuf)
      (exec .seqFormat { start strict with cmdlist := [⟨10, true, 0, false⟩, ⟨20, false, 30, true⟩] }) =
      some (some [10, 128, 0, 0, 20, 0, 30, 128]) := by decide
theorem test_seqFormat_disposed : answer (exec .seqFormat { start strict with disposed := true }) =
    some (.error .disposedError) := by decide
theorem test_seqParse :
    after (fun t => t.rxseq) (exec .seqParse { start strict with dataIn := [14, 128, 12, 0, 244, 1, 8, 2] }) =
      some (some [⟨14, true, 12, false⟩, ⟨500, false, 520, false⟩]) := by decide
theorem test_seqParse_format_error :
    after (fun t => (t.rxseq, t.history)) (exec .seqParse { start strict with dataIn := [0, 0, 0, 0, 0, 0, 0] }) =
      some (none, [.error (.formatError 7)]) := by decide
theorem test_seqDispose_idempotent :
    after (fun t => (t.disposed, t.cmdlist)) (exec .seqDispose { start strict with disposed := true }) =
      some (true, [⟨14, true, 12, false⟩]) := by decide
theorem test_reservedE : answer (exec (.reservedE 1) (start strict)) =
    some (.error (.illegalOp 0x1E)) := by decide
theorem test_reservedF : answer (exec (.reservedF 0) (start strict)) =
    some (.error (.illegalOp 0xF)) := by decide
theorem test_pulse : answer (exec (.pulse 14 true 12 false) (start strict)) =
    some (.ok (.command ⟨14, true, 12, false⟩)) := by decide

/-! ### Packing vectors (95_test_vectors.md 2.2) -/

theorem test_pack_mixed : pack ⟨4660, true, 22136, false⟩ = 0x56789234 ∧
    packBytes ⟨4660, true, 22136, false⟩ = [52, 146, 120, 86] := by decide
theorem test_unpack_mixed : unpack 0x12345678 = ⟨22136, false, 4660, false⟩ ∧
    unpackBytes 0x78 0x56 0x34 0x12 = ⟨22136, false, 4660, false⟩ := by decide

/-! ### Witnesses: the hypotheses of each statement are met -/

/-- P0 and P2 ⊥ as well. -/
def blank (cfg : Config) : State := State.resetWith cfg

/-- A state with two presented items. -/
def queued (w : PortWord) (bytes : List Byte) : State :=
  { start strict with port := [⟨w, bytes⟩, ⟨.request 0xD, []⟩] }

theorem witness_UnusedFieldsAreIgnored :
    decode (.request 0x00000000FFFF000B) = .instruction .seqFormat ∧
    decode (.wire 0xFFFFFFFF) = .instruction (.pulse 32767 true 32767 true) := by decide

theorem witness_RequestDecodingIsTotal :
    (0x8000#64).extractLsb' 10 6 ≠ 0 ∧ (0x8000000000000000#64).extractLsb' 50 14 ≠ 0 ∧
    (0xE#64).extractLsb' 0 4 = 0xE#4 ∧ (0xF#64).extractLsb' 0 4 = 0xF#4 ∧
    ∀ op : BitVec 4, (op.setWidth 64).extractLsb' 10 6 = 0 ∧ (op.setWidth 64).extractLsb' 50 14 = 0 ∧
      (op.setWidth 64).extractLsb' 0 4 = op := by decide

theorem witness_StepRunsTheDecodedInstruction :
    (queued (.request 0x45) []).port = [⟨.request 0x45, []⟩, ⟨.request 0xD, []⟩] ∧
    decode (.request 0x45) = .instruction (.pcGet 1) ∧
    (queued (.request 0x40B) []).port = [⟨.request 0x40B, []⟩, ⟨.request 0xD, []⟩] ∧
    decode (.request 0x40B) = .rejected (.reservedBits 0x40B) ∧ State.reset.port = [] := by decide

theorem witness_FetchedTableWordRunsNext :
    decodeTableWord 64 0x45 = some (.pcGet 1) ∧ decodeTableWord 32 0 = some (.pulse 0 false 0 false) ∧
    decodeTableWord 1 0 = some (.pcNew 0 0 false 0 false) := by decide

theorem witness_IllegalRequestRaisesIllegalOp :
    (queued (.request 0xE) [1]).port = ⟨.request 0xE, [1]⟩ :: [⟨.request 0xD, []⟩] ∧ (0xE#64).extractLsb' 0 4 = 0xE#4 ∧
    (queued (.request 0x400) [1]).port = ⟨.request 0x400, [1]⟩ :: [⟨.request 0xD, []⟩] ∧ (0x400#64).extractLsb' 10 6 ≠ 0 ∧
    (0x4000000000000#64).extractLsb' 50 14 ≠ 0 ∧ (0xF#64).extractLsb' 0 4 = 0xF#4 := by decide

theorem witness_PcNewBuildsAValidatedCommand :
    (32767#16).toNat ≤ 32767 ∧ (1#16).toNat ≤ 32767 ∧ (start strict).cfg.minDuration0 = .one ∧ 1 ≤ (1#16).toNat ∧
    (checkD0 strict 32768 = some ⟨.duration0, .max, 32767, 32768⟩ ∧ checkD1 0 = none) ∧
    (checkD0 strict 1 = none ∧ checkD1 32768 = some ⟨.duration1, .max, 32767, 32768⟩) ∧
    (checkD0 strict 0 = some ⟨.duration0, .min, 1, 0⟩ ∧ checkD1 65535 = some ⟨.duration1, .max, 32767, 65535⟩) := by decide

theorem witness_PcSetD0SetsDuration0 :
    (start strict).readReg 3 = none ∧ (start strict).readReg 1 = some ⟨100, true, 200, false⟩ ∧
    checkD0 (start strict).cfg 0 = some ⟨.duration0, .min, 1, 0⟩ ∧
    (1#16).toNat ≤ 32767 ∧ (start strict).cfg.minDuration0 = .one ∧ 1 ≤ (1#16).toNat := by decide

theorem witness_PcSetD1SetsDuration1 :
    (start strict).readReg 3 = none ∧ (start strict).readReg 1 = some ⟨100, true, 200, false⟩ ∧
    32767 < (32768#16).toNat ∧ (32767#16).toNat ≤ 32767 := by decide

/-- For PC.SETL0, PC.SETL1, PC.GET and PC.PACK, whose hypotheses are the same. -/
theorem witness_RegisterOperands_SetL0_SetL1_Get_Pack :
    (start strict).readReg 3 = none ∧ (start strict).readReg 0 = some ⟨14, true, 12, false⟩ := by decide

theorem witness_PcEqComparesByValue :
    (start strict).readReg 0 = some ⟨14, true, 12, false⟩ ∧ (start strict).readReg 1 = some ⟨100, true, 200, false⟩ ∧
    ((start strict).readReg 3 = none ∧ ∀ j : RegIndex, (j = 0 ∨ j = 3) → (start strict).readReg j = none → j = 3) ∧
    ((blank strict).readReg 0 = none ∧ (blank strict).readReg 3 = none) := by decide

theorem witness_PackAndUnpackAreInverse :
    (3 : RegIndex) ≠ 0 ∧ (start strict).readReg 0 = some ⟨14, true, 12, false⟩ ∧
    meetsMinimum (start strict).cfg ⟨14, true, 12, false⟩ ∧ (start lax).cfg.decodeMinPolicy = .accept := by decide

theorem witness_PcUnpackWritesTheDecodedCommand :
    (start strict).cfg.decodeMinPolicy = .reject ∧ (start strict).cfg.minDuration0 = .one ∧
    (1#32).extractLsb' 0 15 ≠ 0 ∧ (0x80008000#32).extractLsb' 0 15 = 0 ∧ (start lax).cfg.decodeMinPolicy = .accept := by decide

theorem witness_PulseWordAnswersItsCommand :
    (start lax).cfg.decodeMinPolicy = .accept ∧ meetsMinimum (start strict).cfg ⟨1, true, 0, false⟩ ∧
    (start strict).cfg.decodeMinPolicy = .reject ∧ ¬ meetsMinimum (start strict).cfg ⟨0, true, 0, false⟩ := by decide

theorem witness_EncodeSeqPlacesEveryByte :
    ([⟨14, true, 12, false⟩, ⟨500, false, 520, false⟩] : List PulseCommand)[1]? = some ⟨500, false, 520, false⟩ ∧ 3 < 4 := by
  decide

theorem witness_DecodeSeqReadsWholeGroups :
    ([14, 128, 12] : List Byte).length % 4 ≠ 0 ∧ ([14, 128, 12, 0] : List Byte).length % 4 = 0 ∧
    0 < ([14, 128, 12, 0] : List Byte).length / 4 := by decide

theorem witness_SequenceEncodingLaws :
    lax.decodeMinPolicy = .accept ∧ (∀ c ∈ (start strict).cmdlist, meetsMinimum strict c) ∧
    decodeErrors strict [14, 128, 12, 0] = [] := by decide

theorem witness_SeqAppendAppendsACopy :
    (start strict).disposed = false ∧ (start strict).readReg 0 = some ⟨14, true, 12, false⟩ ∧
    (start strict).cfg.cmdlistMax ≠ some (start strict).cmdlist.length ∧
    (start ⟨.one, .reject, some 1, none⟩).cfg.cmdlistMax = some (start ⟨.one, .reject, some 1, none⟩).cmdlist.length ∧
    ({ start strict with disposed := true } : State).disposed = true ∧ (start strict).readReg 3 = none := by decide

theorem witness_AppendAtCapacityIsStuck :
    (start ⟨.one, .reject, some 1, none⟩).cfg.cmdlistMax = some 1 ∧
    (start ⟨.one, .reject, some 1, none⟩).cmdlist.length = 1 ∧ (start ⟨.one, .reject, some 1, none⟩).disposed = false ∧
    (start ⟨.one, .reject, some 1, none⟩).readReg 0 = some ⟨14, true, 12, false⟩ ∧ (start lax).cfg.cmdlistMax = none := by
  decide

/-- For SEQ.CLEAR, SEQ.FORMAT and SEQ.DISPOSE, whose hypotheses are the same. -/
theorem witness_Disposed_Clear_Format_Dispose :
    (start strict).disposed = false ∧ ({ start strict with disposed := true } : State).disposed = true := by decide

/-- An input of `bytes` under `cfg`. -/
def input (cfg : Config) (bytes : List Byte) : State := { start cfg with dataIn := bytes }

theorem witness_SeqParseDecodesTheWholeInput :
    ((input strict [1, 0, 0, 0, 1, 0, 0, 0, 1]).cfg.parseMaxBytes = some 8 ∧
      8 < (input strict [1, 0, 0, 0, 1, 0, 0, 0, 1]).dataIn.length) ∧
    (input strict [1, 0, 0, 0, 1, 0, 0, 0]).dataIn.length ≤ 8 ∧
    (input strict [1, 0, 0, 0, 1, 0, 0, 0]).dataIn.length % 4 = 0 ∧
    (∀ c ∈ decodeGroups (input strict [1, 0, 0, 0, 1, 0, 0, 0]).dataIn, meetsMinimum strict c) ∧
    (input strict [14, 128, 12]).dataIn.length % 4 ≠ 0 ∧
    (⟨0, false, 5, false⟩ ∈ decodeGroups (input strict [0, 0, 5, 0]).dataIn ∧
      ¬ meetsMinimum (input strict [0, 0, 5, 0]).cfg ⟨0, false, 5, false⟩ ∧ strict.decodeMinPolicy = .reject) := by decide

theorem witness_ParseOverBoundIsStuck :
    (input strict [1, 0, 0, 0, 1, 0, 0, 0, 1]).cfg.parseMaxBytes = some 8 ∧
    8 < (input strict [1, 0, 0, 0, 1, 0, 0, 0, 1]).dataIn.length ∧ (start lax).cfg.parseMaxBytes = none := by decide

theorem witness_DisposalGatesTheChannelOperations :
    Instr.seqClear.isGated = true ∧ (Instr.seqAppend 3).isGated = true ∧
    ({ start strict with disposed := true } : State).disposed = true ∧
    (Instr.pcGet 0).isGated = false ∧ Instr.seqDispose.isGated = false := by decide

theorem witness_ParseOfFormatGivesTheListBack :
    (start strict).disposed = false ∧ (∀ c ∈ (start strict).cmdlist, meetsMinimum strict c) ∧
    (start strict).cfg.parseMaxBytes = some 8 ∧ 4 * (start strict).cmdlist.length ≤ 8 := by decide

theorem witness_ErrorsChangeNoState :
    (queued (.request 0xC5) []).port = ⟨.request 0xC5, []⟩ :: [⟨.request 0xD, []⟩] ∧
    after (fun t => t.history) (step (queued (.request 0xC5) [])) =
      some ((queued (.request 0xC5) []).history ++ [.error (.unwritten 3)]) := by decide

theorem witness_EveryRequestIsAnsweredOrStuck :
    (queued (.request 0xC) [1]).port = ⟨.request 0xC, [1]⟩ :: [⟨.request 0xD, []⟩] := by decide

theorem witness_ErrorsComeFromTheirCauses :
    after (fun t => t.history) (exec (.pcGet 3) (start strict)) =
      some ((start strict).history ++ [.error (.unwritten 3)]) ∧
    after (fun t => t.history) (exec (.pcSetD0 1 32768) (start strict)) =
      some ((start strict).history ++ [.error (.rangeError ⟨.duration0, .max, 32767, 32768⟩)]) ∧
    after (fun t => t.history) (exec .seqParse (input strict [0, 0, 5, 0])) =
      some ((input strict [0, 0, 5, 0]).history ++ [.error (.rangeError ⟨.duration0, .min, 1, 0⟩)]) := by decide

/-- The widened cause is no tautology: in-range operands, and another record, are no cause. -/
theorem test_rangeCause_refuses :
    ¬ rangeCause (.pcSetD0 1 5) (start strict) ⟨.duration0, .max, 32767, 5⟩ ∧
    ¬ rangeCause (.pcSetD1 1 32768) (start strict) ⟨.duration0, .max, 32767, 32768⟩ ∧
    ¬ rangeCause (.pcGet 0) (start strict) ⟨.duration0, .min, 1, 0⟩ := by
  refine ⟨?_, ?_, id⟩ <;> (unfold rangeCause; decide)

theorem witness_OnlyTheDestinationRegisterChanges :
    after (fun t => t.readReg 3) (exec (.pcNew 3 1 true 0 false) (start strict)) = some (some ⟨1, true, 0, false⟩) ∧
    (Instr.pcNew 3 1 true 0 false).writesReg = some 3 ∧ (Instr.pcNew 3 1 true 0 false).writesReg ≠ some 2 := by decide

/-- PC.GET is none of the writers; SEQ.APPEND is one. -/
theorem witness_EachStateElementHasItsWriters :
    after (fun t => (t.cmdlist, t.disposed, t.outbuf, t.rxseq)) (exec (.pcGet 0) (start strict)) =
      some ([⟨14, true, 12, false⟩], false, none, none) ∧
    (∀ r, Instr.pcGet 0 ≠ .seqAppend r) ∧ Instr.pcGet 0 ≠ .seqClear ∧ Instr.pcGet 0 ≠ .seqDispose ∧
    Instr.pcGet 0 ≠ .seqFormat ∧ Instr.pcGet 0 ≠ .seqParse ∧
    after (fun t => t.cmdlist) (exec (.seqAppend 0) (start strict)) =
      some [⟨14, true, 12, false⟩, ⟨14, true, 12, false⟩] := by decide

theorem witness_BelowMinimumOnlyByAcceptedUnpack :
    after (fun t => t.readReg 3) (exec (.pcUnpack 3 0) (start ⟨.one, .accept, none, none⟩)) =
      some (some ⟨0, false, 0, false⟩) ∧
    ¬ meetsMinimum ⟨.one, .accept, none, none⟩ ⟨0, false, 0, false⟩ := by decide

theorem witness_DisposedIsForever :
    after (fun t => t.disposed) (step (queued (.request 0xD) [])) = some true ∧
    after (fun t => t.disposed) (step (queued (.request 0xA) [])) = some false := by decide

/-- A state with the invariant, and a step from it. -/
theorem witness_EveryStepKeepsTheInvariant :
    (queued (.request 0x49) []).Inv ∧ (after (fun t => t.cmdlist.length) (step (queued (.request 0x49) []))) = some 2 := by
  refine ⟨⟨fun _ i c h => ?_, fun _ => by decide, fun _ cs h => ?_, fun n h => ?_, by decide, fun _ _ cs h => ?_⟩, by decide⟩
  · have : ∀ i : RegIndex, ∀ c ∈ (queued (.request 0x49) []).readReg i, meetsMinimum strict c := by decide
    exact this i c h
  · cases h
  · cases h
    decide
  · cases h

end Sys2Proof.Tests
end

section
/-! PROOFS of the family "state" (10_state.md): what each instruction may write, the invariant of the machine, and that earlier
responses are never read. Claims about one run go through `exec_cases`, those about a step through `step_cases` besides. -/

namespace Sys2Proof.Machine

/-! ### What can lead to a next state -/

/-- A next state of an instruction is one of the next states among its outcomes. -/
theorem outcomes_of_exec {i : Instr} {s t : State} (h : exec i s = .next t) : Outcomes i s (.next t) :=
  h ▸ exec_cases i s

/-- All that a step can do: wait, execute the oldest item's instruction, or answer a rejected word (20_memory.md R41,
30_encoding.md R57). -/
theorem step_cases {s t : State} (h : step s = .next t) :
    (s.port = [] ∧ t = s) ∨
    ∃ item rest, s.port = item :: rest ∧
      ((∃ i, decode item.word = .instruction i ∧ exec i (s.accept item rest) = .next t) ∨
       ∃ w, decode item.word = .rejected (.reservedBits w) ∧ t = (s.accept item rest).respond (.error (.illegalOp w))) := by
  unfold step at h
  split at h
  · next hp =>
    cases h
    exact .inl ⟨hp, rfl⟩
  · next item rest hp =>
    refine .inr ⟨item, rest, hp, ?_⟩
    rcases hd : decode item.word with i | ⟨⟨w⟩⟩
    · rw [hd] at h
      exact .inl ⟨i, rfl, h⟩
    · rw [hd] at h
      cases h
      exact .inr ⟨w, rfl, rfl⟩

/-! ### The writers of each state element (O40 to O43) -/

/-- Settles O40: the one outcome that touches the register file is the write to the destination, and the outcomes that write
another element belong to instructions without a destination. -/
theorem onlyTheDestinationRegisterChanges : Obligations.OnlyTheDestinationRegisterChanges := by
  intro i s t h
  cases outcomes_of_exec h with
  | error | answer => exact ⟨fun _ _ => rfl, fun _ _ => ⟨rfl, rfl, rfl, rfl⟩⟩
  | write rd c hw _ =>
    refine ⟨fun r hr => ?_, fun _ _ => ⟨rfl, rfl, rfl, rfl⟩⟩
    have hne : r ≠ rd := fun e => hr (e ▸ hw)
    exact readReg_writeReg_ne s c hne
  | append _ _ hi | clear hi | format hi | parse hi | dispose hi =>
    subst hi
    exact ⟨fun _ _ => rfl, fun _ hw => nomatch hw⟩

/-- Settles O41: each outcome that writes an element names the instruction it belongs to. -/
theorem eachStateElementHasItsWriters : Obligations.EachStateElementHasItsWriters := by
  intro i s t h
  cases outcomes_of_exec h with
  | error | answer | write =>
    exact ⟨fun _ _ => rfl, fun _ => rfl, fun _ => ⟨rfl, fun _ => rfl⟩, fun _ => rfl, rfl, rfl, rfl⟩
  | append r c hi =>
    exact ⟨fun hn _ => absurd hi (hn r), fun _ => rfl, fun _ => ⟨rfl, fun _ => rfl⟩, fun _ => rfl, rfl, rfl, rfl⟩
  | clear hi =>
    exact ⟨fun _ hn => absurd hi hn, fun _ => rfl, fun _ => ⟨rfl, fun _ => rfl⟩, fun _ => rfl, rfl, rfl, rfl⟩
  | format hi =>
    exact ⟨fun _ _ => rfl, fun _ => rfl, fun hn => absurd hi hn, fun _ => rfl, rfl, rfl, rfl⟩
  | parse hi =>
    exact ⟨fun _ _ => rfl, fun _ => rfl, fun _ => ⟨rfl, fun _ => rfl⟩, fun hn => absurd hi hn, rfl, rfl, rfl⟩
  | dispose hi =>
    exact ⟨fun _ _ => rfl, fun hn => absurd hi hn, fun _ => ⟨rfl, fun _ => rfl⟩, fun _ => rfl, rfl, rfl, rfl⟩

/-- SEQ.DISPOSE sets DISPOSED (42_sequence.md R88). -/
theorem exec_seqDispose_disposed {s t : State} (h : exec .seqDispose s = .next t) : t.disposed = true := by
  cases h
  rfl

/-- An instruction leaves DISPOSED true exactly when it was, or when it is SEQ.DISPOSE. -/
theorem exec_disposed_iff {i : Instr} {s t : State} (h : exec i s = .next t) :
    t.disposed = true ↔ s.disposed = true ∨ i = .seqDispose := by
  by_cases hi : i = .seqDispose
  · subst hi
    simp [exec_seqDispose_disposed h]
  · obtain ⟨-, hdisposed, -⟩ := eachStateElementHasItsWriters i s t h
    simp [hdisposed hi, hi]

/-- Settles O42, by the three things a step can do. -/
theorem disposedIsForever : Obligations.DisposedIsForever := by
  refine ⟨fun _ => rfl, fun s t h => ?_⟩
  rcases step_cases h with ⟨hp, rfl⟩ | ⟨item, rest, hp, ⟨i, hd, hx⟩ | ⟨w, hd, rfl⟩⟩
  · simp [hp]
  · simp [hp, hd, exec_disposed_iff hx]
  · simp [hp, hd]

/-- Settles O43: a write stores only what `Storable` allows, and every other register is as it was. -/
theorem belowMinimumOnlyByAcceptedUnpack : Obligations.BelowMinimumOnlyByAcceptedUnpack := by
  intro i s t r c h hr hbelow
  by_cases hw : i.writesReg = some r
  · cases outcomes_of_exec h with
    | error | answer => exact .inl ⟨c, hr, rfl⟩
    | write rd c' hrd hstore =>
      obtain rfl : rd = r := Option.some.inj (hrd.symm.trans hw)
      obtain rfl : c' = c := by simpa using hr
      exact hstore.resolve_left hbelow
    | append _ _ hi | clear hi | format hi | parse hi | dispose hi => exact .inl ⟨c, hr, rfl⟩
  · obtain ⟨hframe, -⟩ := onlyTheDestinationRegisterChanges i s t h
    exact .inl ⟨c, hframe r hw ▸ hr, rfl⟩

/-! ### The invariant (O44, O45) -/

/-- With MIN_DURATION0 = 0 nothing is below the minimum (00_scope.md R9). -/
theorem meetsMinimum_of_zero {cfg : Config} (h : cfg.minDuration0 = .zero) (c : PulseCommand) : meetsMinimum cfg c := by
  simp [meetsMinimum, minDuration0, h, BitVec.le_def]

/-- Only d0 counts for the minimum. -/
theorem meetsMinimum_congr {cfg : Config} {c c' : PulseCommand} (h : c'.d0 = c.d0) (hc : meetsMinimum cfg c') :
    meetsMinimum cfg c := by
  simpa [meetsMinimum, h] using hc

/-- Where the minimum is enforced, accepting decoded words does no harm: it is 0 then. -/
theorem meetsMinimum_of_accept {cfg : Config} (he : minimumEnforced cfg) (ha : cfg.decodeMinPolicy = .accept)
    (c : PulseCommand) : meetsMinimum cfg c := by
  rcases he with hr | hz
  · simp [ha] at hr
  · exact meetsMinimum_of_zero hz c

/-- Where the minimum is enforced, `decodeCheck` passes only what meets it (41_pack_unpack.md R77). -/
theorem meetsMinimum_of_decodeCheck {cfg : Config} (he : minimumEnforced cfg) {c : PulseCommand}
    (h : decodeCheck cfg c = none) : meetsMinimum cfg c := by
  rcases decodeCheck_eq_none.1 h with ha | hm
  · exact meetsMinimum_of_accept he ha c
  · exact hm

/-- In a state with the invariant, what a write may store meets the minimum where it is enforced. -/
theorem meetsMinimum_of_storable {i : Instr} {s : State} {rd : RegIndex} {c : PulseCommand} (h : Storable i s rd c)
    (hs : s.Inv) (he : minimumEnforced s.cfg) : meetsMinimum s.cfg c := by
  rcases h with hm | ⟨c', hc', hd0⟩ | ⟨ha, -⟩
  · exact hm
  · exact meetsMinimum_congr hd0 (hs.registers he rd c' hc')
  · exact meetsMinimum_of_accept he ha c

/-- A buffer that `decodeSeq` accepts decodes to commands that each pass `decodeCheck` (42_sequence.md R81). -/
theorem decodeCheck_of_decodeErrors {cfg : Config} {b : List Byte} (h : decodeErrors cfg b = []) :
    ∀ c ∈ decodeGroups b, decodeCheck cfg c = none := by
  intro c hc
  unfold decodeErrors at h
  split at h
  · cases h
  · exact eq_none_of_rangeErrors h _ (List.mem_map_of_mem hc)

/-- Every decoded command has its own four bytes (00_scope.md R13). -/
theorem decodeGroups_length_le (b : List Byte) : 4 * (decodeGroups b).length ≤ b.length := by
  induction b using decodeGroups.induct with
  | case1 b0 b1 b2 b3 rest ih =>
    simp only [decodeGroups, List.length_cons]
    omega
  | case2 b hshort =>
    rw [decodeGroups]
    · simp
    · exact hshort

/-- An input within the bound is no longer than it (42_sequence.md R87). -/
theorem length_le_of_overParseBound {s : State} {m : Nat} (h : overParseBound s = false) (hm : s.cfg.parseMaxBytes = some m) :
    s.dataIn.length ≤ m := by
  simpa [overParseBound, hm] using h

/-- The invariant speaks of the block's own elements and the configuration: not of the ports, the responses, the draws or
DISPOSED. -/
theorem State.Inv.congr {s t : State} (hs : s.Inv) (hp : t.p = s.p) (hlist : t.cmdlist = s.cmdlist)
    (hout : t.outbuf = s.outbuf) (hrx : t.rxseq = s.rxseq) (hcfg : t.cfg = s.cfg) : t.Inv where
  registers := by simpa only [hcfg, readReg_congr hp] using hs.registers
  list := by simpa only [hcfg, hlist] using hs.list
  parsed := by simpa only [hcfg, hrx] using hs.parsed
  capacity := by simpa only [hcfg, hlist] using hs.capacity
  buffer := by simpa only [hout] using hs.buffer
  parseBound := by simpa only [hcfg, hrx] using hs.parseBound

theorem State.Inv.respond {s : State} (hs : s.Inv) (r : Response) : (s.respond r).Inv := hs.congr rfl rfl rfl rfl rfl

theorem State.Inv.accept {s : State} (hs : s.Inv) (item : Presented) (rest : List Presented) : (s.accept item rest).Inv :=
  hs.congr rfl rfl rfl rfl rfl

/-- Writing a register with a command that meets the minimum where it is enforced. -/
theorem State.Inv.writeReg {s : State} (hs : s.Inv) (rd : RegIndex) {c : PulseCommand}
    (hc : minimumEnforced s.cfg → meetsMinimum s.cfg c) : (s.writeReg rd c).Inv :=
  { hs with
    registers := fun he i d hd => by
      rw [readReg_writeReg] at hd
      split at hd
      · cases hd
        exact hc he
      · exact hs.registers he i d hd }

/-- Appending a register's command below capacity (42_sequence.md R82): a list within the bound and not at it has room. -/
theorem State.Inv.append {s : State} (hs : s.Inv) {r : RegIndex} {c : PulseCommand} (hc : s.readReg r = some c)
    (hroom : s.cfg.cmdlistMax ≠ some s.cmdlist.length) : State.Inv { s with cmdlist := s.cmdlist ++ [c] } :=
  { hs with
    list := fun he d hd => by
      rcases List.mem_append.1 hd with hd | hd
      · exact hs.list he d hd
      · cases List.mem_singleton.1 hd
        exact hs.registers he r c hc
    capacity := fun n (hn : s.cfg.cmdlistMax = some n) => by
      have hle : s.cmdlist.length ≤ n := hs.capacity n hn
      have hne : s.cmdlist.length ≠ n := fun e => hroom (e ▸ hn)
      simp only [List.length_append, List.length_singleton]
      omega }

/-- Clearing the list (42_sequence.md R84). -/
theorem State.Inv.clear {s : State} (hs : s.Inv) : State.Inv { s with cmdlist := [] } :=
  { hs with
    list := fun _ _ hd => absurd hd List.not_mem_nil
    capacity := fun _ _ => Nat.zero_le _ }

/-- Recording an encoded sequence in OUTBUF (42_sequence.md R85). -/
theorem State.Inv.format {s : State} (hs : s.Inv) (cs : List PulseCommand) :
    State.Inv { s with outbuf := some (encodeSeq cs) } :=
  { hs with buffer := memory_wf_encodeSeq cs }

/-- Recording the commands of an accepted input within the bound in RXSEQ (42_sequence.md R86). -/
theorem State.Inv.parse {s : State} (hs : s.Inv) (hbound : overParseBound s = false)
    (hgood : decodeErrors s.cfg s.dataIn = []) : State.Inv { s with rxseq := some (decodeGroups s.dataIn) } :=
  { hs with
    parsed := fun he cs hcs c hc => by
      cases hcs
      exact meetsMinimum_of_decodeCheck he (decodeCheck_of_decodeErrors hgood c hc)
    parseBound := fun m hm cs hcs => by
      cases hcs
      exact (decodeGroups_length_le s.dataIn).trans (length_le_of_overParseBound hbound hm) }

/-- Every instruction keeps the invariant. -/
theorem exec_keeps_inv {i : Instr} {s t : State} (hs : s.Inv) (h : exec i s = .next t) : t.Inv := by
  cases outcomes_of_exec h with
  | error | answer | dispose => exact hs.congr rfl rfl rfl rfl rfl
  | write rd c _ hstore => exact (hs.writeReg rd (meetsMinimum_of_storable hstore hs)).respond _
  | append r c _ _ hc hroom => exact (hs.append hc hroom).respond _
  | clear => exact hs.clear.respond _
  | format => exact (hs.format s.cmdlist).respond _
  | parse _ hbound hgood => exact (hs.parse hbound hgood).respond _

/-- Settles O44, by the three things a step can do. -/
theorem everyStepKeepsTheInvariant : Obligations.EveryStepKeepsTheInvariant := by
  intro s t hs h
  rcases step_cases h with ⟨-, rfl⟩ | ⟨item, rest, -, ⟨i, -, hx⟩ | ⟨w, -, rfl⟩⟩
  · exact hs
  · exact exec_keeps_inv (hs.accept item rest) hx
  · exact (hs.accept item rest).respond _

/-- Settles O45: after reset no register is written, the list is empty, and OUTBUF and RXSEQ are absent. -/
theorem resetEstablishesTheInvariant : Obligations.ResetEstablishesTheInvariant := fun cfg =>
  { registers := fun _ i c hc => by simp at hc
    list := fun _ _ hc => absurd hc List.not_mem_nil
    parsed := fun _ _ hcs => nomatch hcs
    capacity := fun _ _ => Nat.zero_le _
    buffer := rfl
    parseBound := fun _ _ _ hcs => nomatch hcs }

/-! ### Earlier responses (O47) -/

/-- The state with some earlier responses before its history. -/
def State.withEarlier (earlier : List Response) (s : State) : State :=
  { s with history := earlier ++ s.history }

theorem withEarlier_respond (earlier : List Response) (s : State) (r : Response) :
    (s.withEarlier earlier).respond r = (s.respond r).withEarlier earlier := by
  simp [State.withEarlier, State.respond]

theorem finish_withEarlier (earlier : List Response) (s : State) (r : Result) :
    finish r (s.withEarlier earlier) = mapOutcome (State.withEarlier earlier) (finish r s) :=
  congrArg Host.Outcome.next (withEarlier_respond earlier s _)

theorem raise_withEarlier (earlier : List Response) (s : State) (e : Error) :
    raise e (s.withEarlier earlier) = mapOutcome (State.withEarlier earlier) (raise e s) :=
  congrArg Host.Outcome.next (withEarlier_respond earlier s _)

section
variable {earlier : List Response}

/-- Guarding reads no response: it raises the same error, or goes on as before. -/
theorem guardErrors_withEarlier {s : State} {es : List Error} {k k' : Outcome}
    (hk : k' = mapOutcome (State.withEarlier earlier) k) :
    guardErrors es (s.withEarlier earlier) k' = mapOutcome (State.withEarlier earlier) (guardErrors es s k) := by
  unfold guardErrors
  split
  · exact hk
  · exact raise_withEarlier earlier s _
  · exact raise_withEarlier earlier { s with draws := s.draws + 1 } _

/-- Reading an operand register reads no response. -/
theorem withReg_withEarlier {s : State} {i : RegIndex} {k k' : PulseCommand → Outcome}
    (hk : ∀ c, k' c = mapOutcome (State.withEarlier earlier) (k c)) :
    withReg i (s.withEarlier earlier) k' = mapOutcome (State.withEarlier earlier) (withReg i s k) := by
  have hread : (s.withEarlier earlier).readReg i = s.readReg i := rfl
  unfold withReg
  rw [hread]
  split
  · exact raise_withEarlier earlier s _
  · next c _ => exact hk c
end

/-- No instruction reads an earlier response: they stand before the history of its outcome as they stood before. -/
theorem exec_withEarlier (earlier : List Response) (i : Instr) (s : State) :
    exec i (s.withEarlier earlier) = mapOutcome (State.withEarlier earlier) (exec i s) := by
  cases i with
  | pcNew rd _ _ _ _ | pcUnpack rd _ =>
    exact guardErrors_withEarlier (finish_withEarlier earlier (s.writeReg rd _) _)
  | pcSetD0 rd _ | pcSetD1 rd _ =>
    exact withReg_withEarlier fun c => guardErrors_withEarlier (finish_withEarlier earlier (s.writeReg rd _) _)
  | pcSetL0 rd _ | pcSetL1 rd _ => exact withReg_withEarlier fun c => finish_withEarlier earlier (s.writeReg rd _) _
  | pcGet | pcPack => exact withReg_withEarlier fun _ => finish_withEarlier earlier s _
  | pcEq =>
    exact guardErrors_withEarlier (withReg_withEarlier fun _ => withReg_withEarlier fun _ => finish_withEarlier earlier s _)
  | seqAppend =>
    refine guardErrors_withEarlier (withReg_withEarlier fun c => ?_)
    have hfull : atCapacity (s.withEarlier earlier) = atCapacity s := rfl
    rw [hfull]
    split
    · rfl
    · exact finish_withEarlier earlier { s with cmdlist := s.cmdlist ++ [c] } _
  | seqClear => exact guardErrors_withEarlier (finish_withEarlier earlier { s with cmdlist := [] } _)
  | seqFormat =>
    exact guardErrors_withEarlier (finish_withEarlier earlier { s with outbuf := some (encodeSeq s.cmdlist) } _)
  | seqParse =>
    have hlong : overParseBound (s.withEarlier earlier) = overParseBound s := rfl
    simp only [exec, execSeqParse, hlong]
    split
    · rfl
    · exact guardErrors_withEarlier (finish_withEarlier earlier { s with rxseq := some (decodeGroups s.dataIn) } _)
  | seqDispose => exact finish_withEarlier earlier { s with disposed := true } _
  | reservedE | reservedF => exact raise_withEarlier earlier s _
  | pulse => exact guardErrors_withEarlier (finish_withEarlier earlier s _)

/-- Settles O47: it is `exec_withEarlier`, the added responses written out. -/
theorem earlierResponsesHaveNoInfluence : Obligations.EarlierResponsesHaveNoInfluence :=
  fun i s earlier => exec_withEarlier earlier i s

end Sys2Proof.Machine
end

section
/-! PROOFS of the statements on the request port (20_memory.md). First what a step is in each of its cases, as equations: with
nothing presented, with an item whose word decodes to an instruction, and with one whose word is rejected. -/

namespace Sys2Proof.Machine

/-- With nothing presented the block waits (notes/assumptions/2.md). -/
theorem step_of_port_nil {s : State} (hp : s.port = []) : step s = .next s := by
  simp only [step, hp]

/-- A step takes the oldest presented item (20_memory.md R41). -/
theorem step_of_port_cons {s : State} {item : Presented} {rest : List Presented} (hp : s.port = item :: rest) :
    step s = execDecoded (decode item.word) (s.accept item rest) := by
  simp only [step, hp]

/-- The step of an item whose word decodes to an instruction executes it (30_encoding.md R54). -/
theorem step_of_instruction {s : State} {item : Presented} {rest : List Presented} {i : Instr}
    (hp : s.port = item :: rest) (hd : decode item.word = .instruction i) : step s = exec i (s.accept item rest) := by
  rw [step_of_port_cons hp, hd, execDecoded]

/-- The step of an item whose word is rejected answers IllegalOp with that word (30_encoding.md R57). -/
theorem step_of_rejected {s : State} {item : Presented} {rest : List Presented} {w : RequestWord}
    (hp : s.port = item :: rest) (hd : decode item.word = .rejected (.reservedBits w)) :
    step s = .next ((s.accept item rest).respond (.error (.illegalOp w))) := by
  rw [step_of_port_cons hp, hd, execDecoded, raiseRejection, raise]

/-- Settles O5: its clauses are the three cases of a step, the accepted item and the answer written out. -/
theorem stepRunsTheDecodedInstruction : Obligations.StepRunsTheDecodedInstruction :=
  ⟨fun _ _ _ hp => ⟨fun _ hd => step_of_instruction hp hd, fun _ hd => step_of_rejected hp hd⟩,
    fun _ hp => step_of_port_nil hp⟩

end Sys2Proof.Machine
end

section
/-! PROOFS of the statements on the encoding (30_encoding.md): decoding and encoding agree in both directions, every request word
has its decoding, and what the step does with an illegal request, with the reserved rows and with a pulse word. First a request
word and its fields: a word is determined by them, and masking a word masks each of them. -/

namespace Sys2Proof

/-! ### A request word and its fields (R52) -/

/-- The nine fields and the two reserved ones make up the whole word (R52). -/
theorem or_fields_eq (w : RequestWord) :
    requestWord (lbField w) (laField w) (bField w) (aField w) (rs2Field w) (rs1Field w) (rdField w) (opField w) |||
      (res0Field w).setWidth 64 <<< 10 ||| (res1Field w).setWidth 64 <<< 50 = w := by
  unfold requestWord lbField laField bField aField rs2Field rs1Field rdField opField res0Field res1Field
  apply BitVec.eq_of_getLsbD_eq
  intro i hi
  interval_cases i <;> simp

/-- A word with its reserved bits clear is the request word of its fields. -/
theorem requestWord_fields {w : RequestWord} (h0 : res0Field w = 0) (h1 : res1Field w = 0) :
    requestWord (lbField w) (laField w) (bField w) (aField w) (rs2Field w) (rs1Field w) (rdField w) (opField w) = w := by
  simpa [h0, h1] using or_fields_eq w

/-- Any word is the reserved row's word of its `op` and its other 60 bits. -/
theorem reservedWord_restField {w : RequestWord} {op : BitVec 4} (hop : opField w = op) :
    reservedWord (restField w) op = w := by
  subst hop
  unfold reservedWord restField opField
  apply BitVec.eq_of_getLsbD_eq
  intro i hi
  interval_cases i <;> simp

/-- Masking a word with clear reserved bits masks each field on its own. -/
theorem and_eq_requestWord {w : RequestWord} (h0 : res0Field w = 0) (h1 : res1Field w = 0) (m : RequestWord) :
    w &&& m = requestWord (lbField w && lbField m) (laField w && laField m) (bField w &&& bField m) (aField w &&& aField m)
      (rs2Field w &&& rs2Field m) (rs1Field w &&& rs1Field m) (rdField w &&& rdField m) (opField w &&& opField m) := by
  have hres0 : res0Field (w &&& m) = 0 := by
    rw [res0Field, BitVec.extractLsb'_and, ← res0Field, h0]
    exact BitVec.zero_and
  have hres1 : res1Field (w &&& m) = 0 := by
    rw [res1Field, BitVec.extractLsb'_and, ← res1Field, h1]
    exact BitVec.zero_and
  rw [← requestWord_fields hres0 hres1]
  simp only [lbField, laField, bField, aField, rs2Field, rs1Field, rdField, opField, bit2bool, BitVec.getLsbD_and,
    BitVec.extractLsb'_and]

/-- A mask that covers a field leaves it as it is. -/
theorem and_eq_self_of_eq_allOnes {n : Nat} {m : BitVec n} (h : m = BitVec.allOnes n) (v : BitVec n) : v &&& m = v := by
  rw [h, BitVec.and_allOnes]

/-- The word operand is `b ++ a` (R52). -/
theorem wField_eq_append (w : RequestWord) : wField w = bField w ++ aField w :=
  (BitVec.extractLsb'_append_extractLsb'_eq_extractLsb' (start₁ := 16) (len₁ := 16) (len₂ := 16) rfl).symm

@[simp] theorem wField_high (w : RequestWord) : (wField w).extractLsb' 16 16 = bField w := by
  rw [wField_eq_append]
  exact BitVec.extractLsb'_append_eq_left

@[simp] theorem wField_low (w : RequestWord) : (wField w).extractLsb' 0 16 = aField w := by
  rw [wField_eq_append]
  exact BitVec.extractLsb'_append_eq_right

/-- A word operand is its two halves, as PC.UNPACK's word carries them. -/
@[simp] theorem append_halves (w : PulseWord) : w.extractLsb' 16 16 ++ w.extractLsb' 0 16 = w :=
  BitVec.extractLsb'_append_extractLsb' (w := 16) (len := 16)

/-! ### Selecting a row by `op` (R55, R57) -/

/-- The row that `op` selects for the word `w`, one constructor for each value of `op`. -/
inductive SelectsRow (w : RequestWord) : Instr → Prop where
  | pcNew (hop : opField w = 0x0#4) : SelectsRow w (.pcNew (rdField w) (aField w) (laField w) (bField w) (lbField w))
  | pcSetD0 (hop : opField w = 0x1#4) : SelectsRow w (.pcSetD0 (rdField w) (aField w))
  | pcSetD1 (hop : opField w = 0x2#4) : SelectsRow w (.pcSetD1 (rdField w) (aField w))
  | pcSetL0 (hop : opField w = 0x3#4) : SelectsRow w (.pcSetL0 (rdField w) (laField w))
  | pcSetL1 (hop : opField w = 0x4#4) : SelectsRow w (.pcSetL1 (rdField w) (laField w))
  | pcGet (hop : opField w = 0x5#4) : SelectsRow w (.pcGet (rs1Field w))
  | pcEq (hop : opField w = 0x6#4) : SelectsRow w (.pcEq (rs1Field w) (rs2Field w))
  | pcPack (hop : opField w = 0x7#4) : SelectsRow w (.pcPack (rs1Field w))
  | pcUnpack (hop : opField w = 0x8#4) : SelectsRow w (.pcUnpack (rdField w) (wField w))
  | seqAppend (hop : opField w = 0x9#4) : SelectsRow w (.seqAppend (rs1Field w))
  | seqClear (hop : opField w = 0xA#4) : SelectsRow w .seqClear
  | seqFormat (hop : opField w = 0xB#4) : SelectsRow w .seqFormat
  | seqParse (hop : opField w = 0xC#4) : SelectsRow w .seqParse
  | seqDispose (hop : opField w = 0xD#4) : SelectsRow w .seqDispose
  | reservedE (hop : opField w = 0xE#4) : SelectsRow w (.reservedE (restField w))
  | reservedF (hop : opField w = 0xF#4) : SelectsRow w (.reservedF (restField w))

/-- `selectOp` finds the row that `op` selects. -/
theorem selectsRow_selectOp (w : RequestWord) : SelectsRow w (selectOp w) := by
  unfold selectOp
  split
  case h_16 =>
    simp only [imp_false] at *
    exact .reservedF (by bv_omega)
  all_goals constructor; bv_omega

/-- No other row is selected: the relation is the function `selectOp`. -/
theorem SelectsRow.selectOp_eq {w : RequestWord} {i : Instr} (h : SelectsRow w i) : selectOp w = i := by
  cases h with
  | _ hop => simp only [selectOp, hop, BitVec.toNat_ofNat, Nat.reducePow, Nat.reduceMod]

/-! ### The decoder (R56, R57) -/

/-- With the reserved bits clear, a request decodes to the row its `op` selects. -/
theorem decode_request_of_selectsRow {w : RequestWord} {i : Instr} (h0 : res0Field w = 0) (h1 : res1Field w = 0)
    (h : SelectsRow w i) : decode (.request w) = .instruction i := by
  rw [decode, decodeRequest, if_pos (.inr ⟨h0, h1⟩), h.selectOp_eq]

/-- So does every word the encoder builds from fields. -/
theorem decode_requestWord (lb la : Bool) (b a : Operand) (rs2 rs1 rd : RegIndex) (op : BitVec 4) :
    decode (.request (requestWord lb la b a rs2 rs1 rd op)) =
      .instruction (selectOp (requestWord lb la b a rs2 rs1 rd op)) :=
  decode_request_of_selectsRow (res0Field_requestWord ..) (res1Field_requestWord ..) (selectsRow_selectOp _)

/-- A reserved `op` value decodes to its row whatever the other bits are. -/
theorem decode_request_of_opE {w : RequestWord} (h : opField w = 0xE#4) :
    decode (.request w) = .instruction (.reservedE (restField w)) := by
  rw [decode, decodeRequest, if_pos (.inl (.inl h)), (SelectsRow.reservedE h).selectOp_eq]

theorem decode_request_of_opF {w : RequestWord} (h : opField w = 0xF#4) :
    decode (.request w) = .instruction (.reservedF (restField w)) := by
  rw [decode, decodeRequest, if_pos (.inl (.inr h)), (SelectsRow.reservedF h).selectOp_eq]

/-- An assigned `op` with a reserved bit set is rejected. -/
theorem decode_request_of_reservedBits {w : RequestWord} (hop : ¬ (opField w = 0xE#4 ∨ opField w = 0xF#4))
    (hres : ¬ (res0Field w = 0 ∧ res1Field w = 0)) : decode (.request w) = .rejected (.reservedBits w) := by
  rw [decode, decodeRequest, if_neg (not_or.2 ⟨hop, hres⟩)]

/-- A request that decodes to an instruction decodes to the row its `op` selects, and its reserved bits are clear unless that row
is a reserved one. -/
theorem selectsRow_of_decode {w : RequestWord} {i : Instr} (h : decode (.request w) = .instruction i) :
    SelectsRow w i ∧ ((opField w = 0xE#4 ∨ opField w = 0xF#4) ∨ (res0Field w = 0 ∧ res1Field w = 0)) := by
  rw [decode, decodeRequest] at h
  split at h
  · next hlegal =>
    cases h
    exact ⟨selectsRow_selectOp w, hlegal⟩
  · cases h

/-- Decoding a pulse word reads its four fields back (R47, R49). -/
theorem decodePulse_pulseWord (d0 : Duration) (l0 : Bool) (d1 : Duration) (l1 : Bool) :
    decodePulse (pulseWord d0 l0 d1 l1) = .pulse d0 l0 d1 l1 := by
  have hd0 : (pulseWord d0 l0 d1 l1).extractLsb' 0 15 = d0 := by
    apply BitVec.eq_of_getLsbD_eq
    intro i hi
    simp [getLsbD_pulseWord, hi]
  have hd1 : (pulseWord d0 l0 d1 l1).extractLsb' 16 15 = d1 := by
    apply BitVec.eq_of_getLsbD_eq
    intro i hi
    simp [getLsbD_pulseWord, hi, show 16 + i < 31 by omega, show ¬ 16 + i < 15 by omega, show ¬ 16 + i < 16 by omega]
  simp [decodePulse, -BitVec.getLsbD_eq_getElem, hd0, hd1, getLsbD_pulseWord]

/-- A pulse word is the word of its four fields: it has no unused bit (R47). -/
theorem encode_decodePulse (w : PulseWord) : encode (decodePulse w) = .wire w := by
  refine congrArg PortWord.wire (BitVec.eq_of_getLsbD_eq fun i hi => ?_)
  rw [getLsbD_pulseWord]
  interval_cases i <;> simp

/-! ### Decoding and encoding agree (O1, O2) -/

/-- Settles O1: the word of a request row has `op` at its place and its reserved bits clear, so it decodes to the row that `op`
selects, and each field the row uses reads back. -/
theorem decodeEncodeRoundTrip : Obligations.DecodeEncodeRoundTrip := by
  intro i
  cases i with
  | pulse d0 l0 d1 l1 => exact congrArg Decoded.instruction (decodePulse_pulseWord d0 l0 d1 l1)
  | reservedE rest => simpa [encode] using decode_request_of_opE (opField_reservedWord rest 0xE)
  | reservedF rest => simpa [encode] using decode_request_of_opF (opField_reservedWord rest 0xF)
  | _ =>
    rw [encode, decode_requestWord]
    simp [selectOp, wField_eq_append]

/-- The word of the row a request selects is the request with the bits that the row does not use cleared (R53, R59). -/
theorem SelectsRow.encode_eq {w : RequestWord} {i : Instr} (h : SelectsRow w i)
    (hlegal : (opField w = 0xE#4 ∨ opField w = 0xF#4) ∨ (res0Field w = 0 ∧ res1Field w = 0)) :
    encode i = .request (w &&& i.usedMask) := by
  cases h with
  | reservedE hop | reservedF hop =>
    exact congrArg PortWord.request ((reservedWord_restField hop).trans (and_eq_self_of_eq_allOnes rfl w).symm)
  | _ hop =>
    obtain ⟨h0, h1⟩ := hlegal.resolve_left (by simp [hop])
    rw [Instr.usedMask, and_eq_requestWord h0 h1, hop]
    simp [encode, lbField, laField, bField, aField, rs2Field, rs1Field, rdField, opField, and_eq_self_of_eq_allOnes]

/-- Settles O2: the first half is `SelectsRow.encode_eq`, and the masked word, being an encoding, decodes back. -/
theorem unusedFieldsAreIgnored : Obligations.UnusedFieldsAreIgnored := by
  refine ⟨fun w i h => ?_, fun w i h => ?_⟩
  · obtain ⟨hrow, hlegal⟩ := selectsRow_of_decode h
    have hword : encode i = .request (w &&& i.usedMask) := hrow.encode_eq hlegal
    exact ⟨hword, hword ▸ decodeEncodeRoundTrip i⟩
  · cases h
    exact encode_decodePulse w

end Sys2Proof

namespace Sys2Proof.Machine

/-! ### Illegal requests (O3, O7, O8) -/

/-- A request is illegal when its `op` is reserved or a reserved bit is set (R56). -/
def IllegalRequest (w : RequestWord) : Prop :=
  opField w = 0xE#4 ∨ opField w = 0xF#4 ∨ res0Field w ≠ 0 ∨ res1Field w ≠ 0

/-- A reserved row answers IllegalOp with the word it came from (60_exceptions.md R93). -/
theorem exec_reservedE_restField {w : RequestWord} (hop : opField w = 0xE#4) (s : State) :
    exec (.reservedE (restField w)) s = raise (.illegalOp w) s :=
  congrArg (fun v => raise (.illegalOp v) s) (reservedWord_restField hop)

theorem exec_reservedF_restField {w : RequestWord} (hop : opField w = 0xF#4) (s : State) :
    exec (.reservedF (restField w)) s = raise (.illegalOp w) s :=
  congrArg (fun v => raise (.illegalOp v) s) (reservedWord_restField hop)

/-- Executing an illegal request raises IllegalOp with the whole word: its reserved row does so, or its rejection (R56). -/
theorem execDecoded_of_illegalRequest {w : RequestWord} (h : IllegalRequest w) (s : State) :
    execDecoded (decode (.request w)) s = raise (.illegalOp w) s := by
  by_cases hE : opField w = 0xE#4
  · rw [decode_request_of_opE hE, execDecoded, exec_reservedE_restField hE]
  by_cases hF : opField w = 0xF#4
  · rw [decode_request_of_opF hF, execDecoded, exec_reservedF_restField hF]
  · have hres : ¬ (res0Field w = 0 ∧ res1Field w = 0) := not_and_or.2 ((h.resolve_left hE).resolve_left hF)
    rw [decode_request_of_reservedBits (not_or.2 ⟨hE, hF⟩) hres, execDecoded, raiseRejection]

/-- Settles O3: an illegal request is `execDecoded_of_illegalRequest`; any other decodes to the row that its `op` selects. -/
theorem requestDecodingIsTotal : Obligations.RequestDecodingIsTotal := by
  intro w
  refine ⟨fun h s => ?_, fun h0 h1 => ?_⟩
  · have hillegal : IllegalRequest w := by
      rcases h with h0 | h1 | hE | hF
      · exact .inr (.inr (.inl h0))
      · exact .inr (.inr (.inr h1))
      · exact .inl hE
      · exact .inr (.inl hF)
    exact execDecoded_of_illegalRequest hillegal s
  · have hrow : ∀ {i : Instr}, SelectsRow w i → decode (.request w) = .instruction i := decode_request_of_selectsRow h0 h1
    exact ⟨fun h => hrow (.pcNew h), fun h => hrow (.pcSetD0 h), fun h => hrow (.pcSetD1 h), fun h => hrow (.pcSetL0 h),
      fun h => hrow (.pcSetL1 h), fun h => hrow (.pcGet h), fun h => hrow (.pcEq h), fun h => hrow (.pcPack h),
      fun h => hrow (.pcUnpack h), fun h => hrow (.seqAppend h), fun h => hrow (.seqClear h),
      fun h => hrow (.seqFormat h), fun h => hrow (.seqParse h), fun h => hrow (.seqDispose h)⟩

/-- Settles O7: the step executes the illegal request in the state that has accepted it. -/
theorem illegalRequestRaisesIllegalOp : Obligations.IllegalRequestRaisesIllegalOp :=
  fun s _ bytes rest hp h =>
    (step_of_port_cons hp).trans (execDecoded_of_illegalRequest h (s.accept ⟨_, bytes⟩ rest))

/-- Settles O8, by the places of `op` and of the other bits in a reserved row's word. -/
theorem reservedRowsAnswerIllegalOp : Obligations.ReservedRowsAnswerIllegalOp := fun rest s =>
  ⟨⟨reservedWord rest 0xE, rfl, opField_reservedWord rest 0xE, restField_reservedWord rest 0xE, raise_eq _ s⟩,
    ⟨reservedWord rest 0xF, rfl, opField_reservedWord rest 0xF, restField_reservedWord rest 0xF, raise_eq _ s⟩⟩

/-! ### Words from the spec and from the opcode table (O4, O6) -/

/-- Settles O4, by evaluating the decoder on each of the six words. -/
theorem sampleWordsDecodeAsListed : Obligations.SampleWordsDecodeAsListed := by
  unfold Obligations.SampleWordsDecodeAsListed
  decide

/-- An opcode-table word names an instruction when the word it stands for decodes to one (notes/assumptions/9.md). -/
theorem decode_tableWord_of_decodeTableWord {nbits w : Nat} {i : Instr} (h : decodeTableWord nbits w = some i) :
    decode (tableWord nbits w) = .instruction i := by
  unfold decodeTableWord at h
  split at h
  · split at h
    · next hd =>
      cases h
      exact hd
    · cases h
  · cases h

/-- Settles O6: the table word is the oldest item at the port, and the step accepts it with no bytes. -/
theorem fetchedTableWordRunsNext : Obligations.FetchedTableWordRunsNext :=
  fun s nbits w _ h =>
    step_of_instruction (s := s.withFetchWord nbits w) rfl (decode_tableWord_of_decodeTableWord h)

/-! ### A pulse word (O24) -/

/-- Only with MIN_DURATION0 = 1 can a command be below the minimum, and then its duration0 is 0 (00_scope.md R9). -/
theorem minDuration0_and_d0_of_not_meetsMinimum {cfg : Config} {c : PulseCommand} (h : ¬ meetsMinimum cfg c) :
    minDuration0 cfg = 1 ∧ zext16 c.d0 = 0 := by
  rcases hmin : cfg.minDuration0 with _ | _
  · exact absurd (meetsMinimum_of_zero hmin c) h
  · have hone : minDuration0 cfg = 1 := by simp [minDuration0, hmin]
    rw [meetsMinimum, hone] at h
    exact ⟨hone, by bv_omega⟩

/-- A rejecting decoder names the bound 1 and the value 0 for every command below the minimum (41_pack_unpack.md R77). -/
theorem decodeCheck_of_not_meetsMinimum {cfg : Config} {c : PulseCommand} (hpolicy : cfg.decodeMinPolicy = .reject)
    (h : ¬ meetsMinimum cfg c) : decodeCheck cfg c = some ⟨.duration0, .min, 1, 0⟩ := by
  obtain ⟨hmin, hd0⟩ := minDuration0_and_d0_of_not_meetsMinimum h
  simp [decodeCheck, hpolicy, hmin, hd0]

/-- Settles O24: `decodeCheck` on the command leaves no error, or the one that is raised. -/
theorem pulseWordAnswersItsCommand : Obligations.PulseWordAnswersItsCommand := by
  refine ⟨fun _ => rfl, fun d0 l0 d1 l1 s => ⟨fun h => ?_, fun hpolicy h => ?_⟩⟩
  · rw [exec, execPulse, decodeCheck_eq_none.2 h, rangeErrors_none, rangeErrors_nil, guardErrors_nil, finish_eq]
  · rw [exec, execPulse, decodeCheck_of_not_meetsMinimum hpolicy h, rangeErrors_some, rangeErrors_nil,
      guardErrors_singleton, raise_eq]

end Sys2Proof.Machine
end

section
/-! PROOFS of the statements on the validation front end (40_pulse_command.md). First the rules they share: when a duration check
passes, what an operation does once its register has been read or its checks have been made, and comparing commands by value. -/

namespace Sys2Proof.Machine

/-! ### The duration checks (O9) -/

/-- Exceeding DURATION_MAX, as numbers (00_scope.md R7). -/
theorem durationMax_lt_iff (v : Operand) : durationMax < v ↔ 32767 < v.toNat := by
  simp [durationMax, BitVec.lt_def]

/-- The minimum under the stricter variant (00_scope.md R9). -/
theorem minDuration0_of_one {cfg : Config} (h : cfg.minDuration0 = .one) : minDuration0 cfg = 1 := by
  simp [minDuration0, h]

/-- An operand is below the minimum only under the stricter variant, and then it is 0 (00_scope.md R9). -/
theorem lt_minDuration0_iff (cfg : Config) (v : Operand) :
    v < minDuration0 cfg ↔ cfg.minDuration0 = .one ∧ v.toNat < 1 := by
  rcases h : cfg.minDuration0 with _ | _ <;> simp [minDuration0, h, BitVec.lt_def]

/-- `checkD0` with its bounds as numbers: the minimum that a record names is 1 (R61). -/
theorem checkD0_eq (cfg : Config) (v : Operand) :
    checkD0 cfg v =
      if 32767 < v.toNat then some ⟨.duration0, .max, 32767, v⟩
      else if cfg.minDuration0 = .one ∧ v.toNat < 1 then some ⟨.duration0, .min, 1, v⟩
      else none := by
  simp only [checkD0, gt_iff_lt, durationMax_lt_iff, lt_minDuration0_iff]
  split
  · rfl
  · split
    · next hlow => rw [minDuration0_of_one hlow.1]
    · rfl

/-- `checkD1` with its bound as a number (R61). -/
theorem checkD1_eq (v : Operand) :
    checkD1 v = if 32767 < v.toNat then some ⟨.duration1, .max, 32767, v⟩ else none := by
  simp only [checkD1, gt_iff_lt, durationMax_lt_iff]
  rfl

/-- Settles O9: each check with its bounds as numbers. -/
theorem durationChecksFollowTheBounds : Obligations.DurationChecksFollowTheBounds :=
  fun cfg v => ⟨checkD0_eq cfg v, checkD1_eq v⟩

/-- `checkD0` passes an operand within both bounds. -/
theorem checkD0_of_within {cfg : Config} {v : Operand} (hmax : v.toNat ≤ 32767)
    (hmin : cfg.minDuration0 = .one → 1 ≤ v.toNat) : checkD0 cfg v = none := by
  have hlow : ¬ (cfg.minDuration0 = .one ∧ v.toNat < 1) := fun ⟨hone, hlt⟩ => absurd (hmin hone) (not_le.2 hlt)
  rw [checkD0_eq, if_neg (not_lt.2 hmax), if_neg hlow]

/-- `checkD1` reports an operand above DURATION_MAX. -/
theorem checkD1_of_lt {v : Operand} (h : 32767 < v.toNat) : checkD1 v = some ⟨.duration1, .max, 32767, v⟩ := by
  rw [checkD1_eq, if_pos h]

/-- `checkD1` passes every other operand: duration1 has no minimum (00_scope.md R10). -/
theorem checkD1_of_le {v : Operand} (h : v.toNat ≤ 32767) : checkD1 v = none := by
  rw [checkD1_eq, if_neg (not_lt.2 h)]

/-! ### Reading an operand register and checking an operand -/

/-- An operation on a register holding ⊥ raises Unwritten of it (10_state.md R18). -/
theorem withReg_of_none {i : RegIndex} {s : State} (h : s.readReg i = none) (k : PulseCommand → Outcome) :
    withReg i s k = raise (.unwritten i) s := by
  simp only [withReg, h]

/-- An operation on a written register goes on with its command. -/
theorem withReg_of_some {i : RegIndex} {s : State} {c : PulseCommand} (h : s.readReg i = some c)
    (k : PulseCommand → Outcome) : withReg i s k = k c := by
  simp only [withReg, h]

/-- When some error applies, one of those that apply is raised (60_exceptions.md R98). -/
theorem guardErrors_of_ne_nil {es : List Error} (hne : es ≠ []) (s : State) (k : Outcome) :
    ∃ e ∈ es, ∃ draws, guardErrors es s k = .next { s with history := s.history ++ [.error e], draws := draws } :=
  (guardErrors_cases es s k).resolve_left fun h => hne h.1

/-- An operation whose one check passes goes on. -/
theorem guardErrors_of_check_none {check : Option RangeErrorInfo} (h : check = none) (s : State) (k : Outcome) :
    guardErrors (rangeErrors [check]) s k = k := by
  rw [h, rangeErrors_none, rangeErrors_nil, guardErrors_nil]

/-- An operation whose one check fails raises the RangeError of its record. -/
theorem guardErrors_of_check_some {check : Option RangeErrorInfo} {info : RangeErrorInfo} (h : check = some info)
    (s : State) (k : Outcome) : guardErrors (rangeErrors [check]) s k = raise (.rangeError info) s := by
  rw [h, rangeErrors_some, rangeErrors_nil, guardErrors_singleton]

/-- Answering after a register write: the register file and the response change, and nothing else. -/
theorem finish_writeReg (r : Result) (s : State) (rd : RegIndex) (c : PulseCommand) :
    finish r (s.writeReg rd c) =
      .next { s with p := s.p.set rd.toNat (some c) rd.isLt, history := s.history ++ [.ok r] } := rfl

/-! ### Building a command (O10) -/

/-- Settles O10: the two checks leave no error, one error, or two of which one is drawn (R63). -/
theorem pcNewBuildsAValidatedCommand : Obligations.PcNewBuildsAValidatedCommand := by
  refine ⟨fun w hop h0 h1 => decode_request_of_selectsRow h0 h1 (.pcNew hop), fun rd a la b lb s => ⟨?_, ?_, ?_⟩⟩
  · intro hmax hmin hb
    rw [exec, execPcNew, checkD0_of_within hmax hmin, rangeErrors_none, guardErrors_of_check_none (checkD1_of_le hb),
      finish_writeReg]
    rfl
  · rintro info (⟨ha, hb⟩ | ⟨ha, hb⟩)
    · rw [exec, execPcNew, ha, hb, rangeErrors_some, rangeErrors_none, rangeErrors_nil, guardErrors_singleton, raise_eq]
    · rw [exec, execPcNew, ha, rangeErrors_none, guardErrors_of_check_some hb, raise_eq]
  · intro info0 info1 ha hb
    have hne : rangeErrors [checkD0 s.cfg a, checkD1 b] ≠ [] := by simp [ha]
    obtain ⟨e, he, draws, hraise⟩ := guardErrors_of_ne_nil hne s _
    obtain ⟨info, hinfo, rfl⟩ := mem_rangeErrors.1 he
    exact ⟨info, draws, by simpa [ha, hb] using hinfo, hraise⟩

/-! ### Setting one field (O11 to O14) -/

/-- Settles O11: the register is read first, then `checkD0` passes the operand or names its violated bound. -/
theorem pcSetD0SetsDuration0 : Obligations.PcSetD0SetsDuration0 := by
  refine ⟨fun w hop h0 h1 => decode_request_of_selectsRow h0 h1 (.pcSetD0 hop), fun rd a s => ⟨fun hr => ?_, ?_⟩⟩
  · rw [exec, execPcSetD0, withReg_of_none hr, raise_eq]
  · refine fun c hr => ⟨fun info ha => ?_, fun hmax hmin => ?_⟩
    · rw [exec, execPcSetD0, withReg_of_some hr, guardErrors_of_check_some ha, raise_eq]
    · rw [exec, execPcSetD0, withReg_of_some hr, guardErrors_of_check_none (checkD0_of_within hmax hmin), finish_writeReg]
      rfl

/-- Settles O12: as for duration0, with `checkD1`, which has no minimum. -/
theorem pcSetD1SetsDuration1 : Obligations.PcSetD1SetsDuration1 := by
  refine ⟨fun w hop h0 h1 => decode_request_of_selectsRow h0 h1 (.pcSetD1 hop), fun rd a s => ⟨fun hr => ?_, ?_⟩⟩
  · rw [exec, execPcSetD1, withReg_of_none hr, raise_eq]
  · refine fun c hr => ⟨fun hover => ?_, fun hle => ?_⟩
    · rw [exec, execPcSetD1, withReg_of_some hr, guardErrors_of_check_some (checkD1_of_lt hover), raise_eq]
    · rw [exec, execPcSetD1, withReg_of_some hr, guardErrors_of_check_none (checkD1_of_le hle), finish_writeReg]
      rfl

/-- Settles O13: a level is never checked, so reading the register is all that can fail. -/
theorem pcSetL0SetsLevel0 : Obligations.PcSetL0SetsLevel0 := by
  refine ⟨fun w hop h0 h1 => decode_request_of_selectsRow h0 h1 (.pcSetL0 hop), fun rd la s => ⟨fun hr => ?_, fun c hr => ?_⟩⟩
  · rw [exec, execPcSetL0, withReg_of_none hr, raise_eq]
  · rw [exec, execPcSetL0, withReg_of_some hr, finish_writeReg]

/-- Settles O14: the row's level field is bit 48, and the rest is as for level0. -/
theorem pcSetL1SetsLevel1 : Obligations.PcSetL1SetsLevel1 := by
  refine ⟨fun w hop h0 h1 => decode_request_of_selectsRow h0 h1 (.pcSetL1 hop), fun rd la s => ⟨fun hr => ?_, fun c hr => ?_⟩⟩
  · rw [exec, execPcSetL1, withReg_of_none hr, raise_eq]
  · rw [exec, execPcSetL1, withReg_of_some hr, finish_writeReg]

/-! ### Reading the fields (O15) -/

/-- Zero extension keeps the number of ticks (R69). -/
theorem toNat_zext16 (d : Duration) : (zext16 d).toNat = d.toNat :=
  BitVec.toNat_setWidth_of_le (by decide)

/-- A duration leaves bit 15 of its 16-bit result 0 (R69). -/
theorem toNat_zext16_le (d : Duration) : (zext16 d).toNat ≤ 32767 := by
  have hd : d.toNat < 2 ^ 15 := d.isLt
  rw [toNat_zext16]
  omega

/-- Settles O15: the two results are the zero-extended durations. -/
theorem pcGetReturnsTheFields : Obligations.PcGetReturnsTheFields := by
  refine ⟨fun w hop h0 h1 => decode_request_of_selectsRow h0 h1 (.pcGet hop), fun rs1 s => ⟨fun hr => ?_, fun c hr => ?_⟩⟩
  · rw [exec, execPcGet, withReg_of_none hr, raise_eq]
  · refine ⟨zext16 c.d0, zext16 c.d1, toNat_zext16 _, toNat_zext16 _, toNat_zext16_le _, toNat_zext16_le _, ?_⟩
    rw [exec, execPcGet, withReg_of_some hr, finish_eq]

/-! ### Comparing by value (O16) -/

/-- Agreement of all four fields is equality of commands (R70). -/
theorem sameCommand_eq_decide (c e : PulseCommand) : sameCommand c e = decide (c = e) := by
  rw [Bool.eq_iff_iff, decide_eq_true_iff, PulseCommand.mk.injEq]
  simp [sameCommand, and_assoc]

/-- With both operands written there is no Unwritten error. -/
theorem unwrittenErrors_pair_of_some {s : State} {rs1 rs2 : RegIndex} {c e : PulseCommand} (hc : s.readReg rs1 = some c)
    (he : s.readReg rs2 = some e) : unwrittenErrors s [rs1, rs2] = [] := by
  simp [unwrittenErrors, hc, he]

/-- With an operand holding ⊥ there is one. -/
theorem unwrittenErrors_ne_nil {s : State} {is : List RegIndex} {i : RegIndex} (hi : i ∈ is) (hr : s.readReg i = none) :
    unwrittenErrors s is ≠ [] :=
  List.ne_nil_of_mem (mem_unwrittenErrors.2 ⟨i, hi, hr, rfl⟩)

/-- Settles O16: the Unwritten errors of the two operands are none, or all of one index, or more, of which one is drawn. -/
theorem pcEqComparesByValue : Obligations.PcEqComparesByValue := by
  refine ⟨fun w hop h0 h1 => decode_request_of_selectsRow h0 h1 (.pcEq hop), fun rs1 rs2 s => ⟨?_, ?_, ?_⟩⟩
  · intro c e hc he
    rw [exec, execPcEq, unwrittenErrors_pair_of_some hc he, guardErrors_nil, withReg_of_some hc, withReg_of_some he,
      sameCommand_eq_decide, finish_eq]
  · intro i hi hr honly
    have hsame : ∀ x ∈ unwrittenErrors s [rs1, rs2], x = .unwritten i := by
      intro x hx
      obtain ⟨j, hj, hjr, rfl⟩ := mem_unwrittenErrors.1 hx
      rw [honly j (by simpa using hj) hjr]
    rw [exec, execPcEq, guardErrors_same (unwrittenErrors_ne_nil (by simpa using hi) hr) hsame, raise_eq]
  · intro hr _
    obtain ⟨x, hx, draws, hraise⟩ := guardErrors_of_ne_nil (unwrittenErrors_ne_nil (is := [rs1, rs2]) (by simp) hr) s _
    obtain ⟨i, hi, -, rfl⟩ := mem_unwrittenErrors.1 hx
    exact ⟨i, draws, by simpa using hi, hraise⟩

end Sys2Proof.Machine
end

section
/-! PROOFS of the statements on packing and unpacking (41_pack_unpack.md). A pulse word is two 16-bit segments, each a level bit
above a duration, and each segment is two bytes, low byte first (20_memory.md R31). First the two views of a segment, then the
word made of two of them, then the checks of the decoder and the two operations. -/

namespace Sys2Proof.Machine

/-! ### One segment, as a word and as two bytes (R72, R76) -/

/-- The 16 bits of a segment: its level above its duration (30_encoding.md R47). -/
def segmentWord (d : Duration) (l : Bool) : BitVec 16 := bool2bit l ++ d

/-- A packed command is its second segment above its first. -/
theorem pack_eq_append (c : PulseCommand) : pack c = segmentWord c.d1 c.l1 ++ segmentWord c.d0 c.l0 :=
  BitVec.append_assoc ..

/-- The bits of a segment. -/
theorem getLsbD_segmentWord (d : Duration) (l : Bool) (i : Nat) :
    (segmentWord d l).getLsbD i = if i < 15 then d.getLsbD i else (bool2bit l).getLsbD (i - 15) :=
  BitVec.getLsbD_append

/-- The bytes of a segment are the low and the high byte of its word. -/
theorem segmentBytes_eq_extractLsb' (d : Duration) (l : Bool) :
    segmentBytes d l = [(segmentWord d l).extractLsb' 0 8, (segmentWord d l).extractLsb' 8 8] := by
  have hlow : (d &&& 0xFF#15).setWidth 8 = (segmentWord d l).extractLsb' 0 8 := by
    apply BitVec.eq_of_getLsbD_eq
    intro i hi
    rw [BitVec.getLsbD_extractLsb', getLsbD_segmentWord]
    interval_cases i <;> simp
  have hhigh : (d >>> 8).setWidth 8 ||| (if l then 0x80#8 else 0x00#8) = (segmentWord d l).extractLsb' 8 8 := by
    apply BitVec.eq_of_getLsbD_eq
    intro i hi
    rw [BitVec.getLsbD_extractLsb', getLsbD_segmentWord]
    cases l <;> interval_cases i <;> simp
  rw [segmentBytes, hlow, hhigh]

/-- The bytes of a segment as numbers (R72). -/
theorem map_toNat_segmentBytes (d : Duration) (l : Bool) :
    (segmentBytes d l).map BitVec.toNat = [d.toNat &&& 0xFF, (d.toNat >>> 8) ||| (if l then 0x80 else 0x00)] := by
  have hlow : d.toNat &&& 0xFF < 2 ^ 8 := Nat.and_lt_two_pow _ (by decide)
  have hhigh : d.toNat >>> 8 < 2 ^ 8 := by
    have hd : d.toNat < 2 ^ 15 := d.isLt
    omega
  have hlevel : (if l then 0x80#8 else 0x00#8).toNat = if l then 0x80 else 0x00 := by cases l <;> rfl
  simp only [segmentBytes, List.map_cons, List.map_nil, BitVec.toNat_setWidth, BitVec.toNat_and, BitVec.toNat_or,
    BitVec.toNat_ushiftRight, BitVec.toNat_ofNat, Nat.mod_eq_of_lt hlow, Nat.mod_eq_of_lt hhigh, hlevel]

/-- The segment read from two bytes is the word they make. -/
theorem segmentWord_of_bytes (lo hi : Byte) : segmentWord (segmentDuration lo hi) (segmentLevel hi) = hi ++ lo := by
  have hlevel : segmentLevel hi = hi.getLsbD 7 := by
    revert hi
    decide
  apply BitVec.eq_of_getLsbD_eq
  intro i h
  rw [getLsbD_segmentWord, BitVec.getLsbD_append, hlevel]
  interval_cases i <;> simp [segmentDuration]

/-- The duration of two bytes as a number (R76). -/
theorem toNat_segmentDuration (lo hi : Byte) :
    (segmentDuration lo hi).toNat = lo.toNat ||| ((hi.toNat &&& 0x7F) <<< 8) := by
  have hlow : lo.toNat < 2 ^ 15 := by omega
  have hmask : (hi &&& 0x7F#8).toNat = hi.toNat &&& 0x7F := BitVec.toNat_and ..
  have hbits : hi.toNat &&& 0x7F < 2 ^ 7 := Nat.and_lt_two_pow _ (by decide)
  have hwide : hi.toNat &&& 0x7F < 2 ^ 15 := by omega
  have hshift : (hi.toNat &&& 0x7F) <<< 8 < 2 ^ 15 := by
    rw [Nat.shiftLeft_eq]
    omega
  rw [segmentDuration, BitVec.toNat_or, BitVec.toNat_shiftLeft, BitVec.toNat_setWidth, BitVec.toNat_setWidth, hmask,
    Nat.mod_eq_of_lt hlow, Nat.mod_eq_of_lt hwide, Nat.mod_eq_of_lt hshift]

/-- The level in a high byte, with the mask as a number (R76). -/
theorem segmentLevel_iff (hi : Byte) : segmentLevel hi = true ↔ hi.toNat &&& 0x80 ≠ 0 := by
  simp [segmentLevel, ← BitVec.toNat_inj]

/-! ### Packing (O17, O18) -/

/-- The bytes of a command as numbers (R72). -/
theorem map_toNat_packBytes (c : PulseCommand) :
    (packBytes c).map BitVec.toNat =
      [c.d0.toNat &&& 0xFF, (c.d0.toNat >>> 8) ||| (if c.l0 then 0x80 else 0x00),
       c.d1.toNat &&& 0xFF, (c.d1.toNat >>> 8) ||| (if c.l1 then 0x80 else 0x00)] := by
  rw [packBytes, List.map_append, map_toNat_segmentBytes, map_toNat_segmentBytes, List.cons_append, List.cons_append,
    List.nil_append]

/-- Bits within the low half of a packed command are those of its first segment. -/
theorem extractLsb'_pack_of_add_le (c : PulseCommand) {start len : Nat} (h : start + len ≤ 16) :
    (pack c).extractLsb' start len = (segmentWord c.d0 c.l0).extractLsb' start len := by
  rw [pack_eq_append]
  exact BitVec.extractLsb'_append_eq_of_add_le h

/-- Bits above the low half are those of its second segment. -/
theorem extractLsb'_pack_of_le (c : PulseCommand) {start len : Nat} (h : 16 ≤ start) :
    (pack c).extractLsb' start len = (segmentWord c.d1 c.l1).extractLsb' (start - 16) len := by
  rw [pack_eq_append]
  exact BitVec.extractLsb'_append_eq_of_le h

/-- Byte `k` of a command is bits 8k+7 to 8k of its word (R72). -/
theorem getElem?_packBytes (c : PulseCommand) {k : Nat} (hk : k < 4) :
    (packBytes c)[k]? = some ((pack c).extractLsb' (8 * k) 8) := by
  rw [packBytes, segmentBytes_eq_extractLsb', segmentBytes_eq_extractLsb']
  by_cases hhalf : k < 2
  · rw [extractLsb'_pack_of_add_le c (by omega)]
    interval_cases k <;> rfl
  · rw [extractLsb'_pack_of_le c (by omega)]
    interval_cases k <;> rfl

/-- Settles O17: the word's halves are the two segments, so its bytes are theirs. -/
theorem packBuildsTheWordAndItsBytes : Obligations.PackBuildsTheWordAndItsBytes :=
  fun c => ⟨rfl, map_toNat_packBytes c, fun _ hk => getElem?_packBytes c hk⟩

/-- The low byte of a duration, by division (R74). -/
theorem and_0xFF_eq_mod (d : Nat) : d &&& 0xFF = d % 256 :=
  Nat.and_two_pow_sub_one_eq_mod d 8

/-- The high byte of a duration, by division (R74). -/
theorem shiftRight_8_eq_div (d : Nat) : d >>> 8 = d / 256 :=
  Nat.shiftRight_eq_div_pow d 8

/-- A duration leaves bit 7 of its high byte free, so putting the level there is adding it (R74). -/
theorem shiftRight_8_or_0x80 {d : Nat} (hd : d ≤ 32767) : (d >>> 8) ||| 0x80 = d / 256 + 128 := by
  have hfree : d / 256 < 2 ^ 7 := by omega
  rw [shiftRight_8_eq_div, Nat.or_comm, Nat.add_comm]
  exact (Nat.two_pow_add_eq_or_of_lt hfree 1).symm

/-- The high byte of a segment, by division and addition (R74). -/
theorem shiftRight_8_or_level (d : Duration) (l : Bool) :
    (d.toNat >>> 8) ||| (if l then 0x80 else 0x00) = d.toNat / 256 + (if l then 128 else 0) := by
  have hd : d.toNat < 2 ^ 15 := d.isLt
  cases l
  · simpa using shiftRight_8_eq_div d.toNat
  · exact shiftRight_8_or_0x80 (by omega)

/-- Settles O18: the three identities turn the shift form of the bytes into the division form. -/
theorem divisionFormGivesTheSameBytes : Obligations.DivisionFormGivesTheSameBytes := by
  refine ⟨fun d hd => ⟨and_0xFF_eq_mod d, shiftRight_8_eq_div d, shiftRight_8_or_0x80 hd⟩, fun c => ?_⟩
  rw [map_toNat_packBytes, and_0xFF_eq_mod, and_0xFF_eq_mod, shiftRight_8_or_level, shiftRight_8_or_level]

/-! ### The packer and the unpacker are inverse (R79) -/

/-- The packer and the decoder's pulse word agree: both follow the table of 30_encoding.md R47. -/
theorem pack_eq_pulseWord (c : PulseCommand) : pack c = pulseWord c.d0 c.l0 c.d1 c.l1 := rfl

/-- Decoding a pulse word reads the fields that `unpack` reads. -/
theorem decodePulse_eq_unpack (w : PulseWord) :
    decodePulse w = .pulse (unpack w).d0 (unpack w).l0 (unpack w).d1 (unpack w).l1 := rfl

/-- Unpacking gives the packed command back (R79). -/
@[simp] theorem unpack_pack (c : PulseCommand) : unpack (pack c) = c := by
  have hfields := decodePulse_pulseWord c.d0 c.l0 c.d1 c.l1
  rw [← pack_eq_pulseWord, decodePulse_eq_unpack, Instr.pulse.injEq] at hfields
  rwa [PulseCommand.mk.injEq]

/-- Packing gives the unpacked word back (R79). -/
@[simp] theorem pack_unpack (w : PulseWord) : pack (unpack w) = w := by
  have hword := encode_decodePulse w
  rwa [decodePulse_eq_unpack, encode, PortWord.wire.injEq, ← pack_eq_pulseWord] at hword

/-! ### Unpacking (O19) -/

/-- The word of a 4-byte group is its two segments, each with its second byte above its first (20_memory.md R31). -/
theorem groupWord_eq_append (b0 b1 b2 b3 : Byte) : groupWord b0 b1 b2 b3 = (b3 ++ b2) ++ (b1 ++ b0) := by
  apply BitVec.eq_of_getLsbD_eq
  intro i h
  rw [BitVec.getLsbD_append, BitVec.getLsbD_append, BitVec.getLsbD_append]
  interval_cases i <;> simp [groupWord]

/-- Packing what four bytes unpack to gives the word they make. -/
theorem pack_unpackBytes (b0 b1 b2 b3 : Byte) : pack (unpackBytes b0 b1 b2 b3) = groupWord b0 b1 b2 b3 := by
  rw [groupWord_eq_append, pack_eq_append, unpackBytes, segmentWord_of_bytes, segmentWord_of_bytes]

/-- Unpacking four bytes is unpacking the word they make (R76). -/
theorem unpackBytes_eq_unpack (b0 b1 b2 b3 : Byte) : unpackBytes b0 b1 b2 b3 = unpack (groupWord b0 b1 b2 b3) := by
  rw [← pack_unpackBytes, unpack_pack]

/-- Settles O19, each half of the bytes being a segment. -/
theorem unpackReadsTheWordAndItsBytes : Obligations.UnpackReadsTheWordAndItsBytes :=
  ⟨fun _ => rfl, fun b0 b1 b2 b3 =>
    ⟨toNat_segmentDuration b0 b1, segmentLevel_iff b1, toNat_segmentDuration b2 b3, segmentLevel_iff b3,
      unpackBytes_eq_unpack b0 b1 b2 b3⟩⟩

/-! ### The decoder's minimum check (O21) -/

/-- `decodeCheck` with its bound as a number (R77). -/
theorem decodeCheck_eq (cfg : Config) (c : PulseCommand) :
    decodeCheck cfg c =
      if cfg.decodeMinPolicy = .reject ∧ cfg.minDuration0 = .one ∧ c.d0.toNat < 1 then
        some ⟨.duration0, .min, 1, zext16 c.d0⟩
      else none := by
  simp only [decodeCheck, lt_minDuration0_iff, toNat_zext16]
  split
  · next hlow =>
    obtain ⟨-, hone, -⟩ := hlow
    rw [minDuration0_of_one hone]
  · rfl

/-- Settles O21: it is `decodeCheck_eq`. -/
theorem decodeCheckFollowsThePolicy : Obligations.DecodeCheckFollowsThePolicy := decodeCheck_eq

/-- A command is below the minimum only under the stricter variant, and then its duration0 is 0 (00_scope.md R9). -/
theorem not_meetsMinimum_iff {cfg : Config} {c : PulseCommand} :
    ¬ meetsMinimum cfg c ↔ cfg.minDuration0 = .one ∧ c.d0 = 0 := by
  rw [meetsMinimum, BitVec.not_le, lt_minDuration0_iff, toNat_zext16, Nat.lt_one_iff, ← BitVec.toNat_inj]
  rfl

/-! ### PC.PACK and PC.UNPACK (O22, O23) -/

/-- PC.PACK of a written register answers the word and the bytes of its command (R75). -/
theorem exec_pcPack_of_some {s : State} {rs1 : RegIndex} {c : PulseCommand} (h : s.readReg rs1 = some c) :
    exec (.pcPack rs1) s = finish (.packed (pack c) (packBytes c)) s :=
  withReg_of_some h _

/-- Settles O22: reading the register is all that can fail (R73). -/
theorem pcPackReturnsWordAndBytes : Obligations.PcPackReturnsWordAndBytes := by
  refine ⟨fun w hop h0 h1 => decode_request_of_selectsRow h0 h1 (.pcPack hop), fun rs1 s => ⟨fun hr => ?_, fun c hr => ?_⟩⟩
  · rw [exec, execPcPack, withReg_of_none hr, raise_eq]
  · rw [exec_pcPack_of_some hr, finish_eq]

/-- PC.UNPACK writes its destination when the decoder accepts the command or the command meets the minimum (R78). -/
theorem exec_pcUnpack_of_accepted {s : State} {w : PulseWord} (rd : RegIndex)
    (h : s.cfg.decodeMinPolicy = .accept ∨ meetsMinimum s.cfg (unpack w)) :
    exec (.pcUnpack rd w) s = finish .done (s.writeReg rd (unpack w)) :=
  guardErrors_of_check_none (decodeCheck_eq_none.2 h) s _

/-- Settles O23: PC.UNPACK writes unless the command is below the minimum under a rejecting decoder. -/
theorem pcUnpackWritesTheDecodedCommand : Obligations.PcUnpackWritesTheDecodedCommand := by
  refine ⟨fun w hop h0 h1 => decode_request_of_selectsRow h0 h1 (.pcUnpack hop), fun rd w s => ⟨?_, ?_, ?_⟩⟩
  · intro _ _ hd0
    have hmin : meetsMinimum s.cfg (unpack w) := by
      by_contra hbelow
      obtain ⟨-, hzero⟩ := not_meetsMinimum_iff.1 hbelow
      exact hd0 hzero
    rw [exec_pcUnpack_of_accepted rd (.inr hmin), finish_writeReg]
    rfl
  · intro h
    rw [exec_pcUnpack_of_accepted rd (h.imp_right fun hzero => meetsMinimum_of_zero hzero _), finish_writeReg]
    rfl
  · intro hreject hone hd0
    have hbelow : ¬ meetsMinimum s.cfg (unpack w) := not_meetsMinimum_iff.2 ⟨hone, hd0⟩
    rw [exec, execPcUnpack, guardErrors_of_check_some (decodeCheck_of_not_meetsMinimum hreject hbelow), raise_eq]

/-! ### PC.PACK and PC.UNPACK are inverse as PC.EQ sees it (O20) -/

/-- PC.EQ answers true for two registers that hold the same command (40_pulse_command.md R70). -/
theorem exec_pcEq_of_same {s : State} {rs1 rs2 : RegIndex} {c : PulseCommand} (h1 : s.readReg rs1 = some c)
    (h2 : s.readReg rs2 = some c) : exec (.pcEq rs1 rs2) s = finish (.equal true) s := by
  obtain ⟨-, hvalues⟩ := pcEqComparesByValue
  obtain ⟨hwritten, -⟩ := hvalues rs1 rs2 s
  rw [hwritten c c h1 h2, decide_eq_true rfl, finish_eq]

/-- PC.UNPACK of the packed word of one register into another makes the two equal by PC.EQ. -/
theorem exec_pcUnpack_pack_same {s : State} {rs1 rd : RegIndex} {c : PulseCommand} (hne : rd ≠ rs1)
    (hc : s.readReg rs1 = some c) (h : s.cfg.decodeMinPolicy = .accept ∨ meetsMinimum s.cfg c) :
    ∃ t u, exec (.pcUnpack rd (pack c)) s = .next t ∧ t.readReg rd = t.readReg rs1 ∧
      exec (.pcEq rs1 rd) t = .next u ∧ u.history = t.history ++ [.ok (.equal true)] := by
  have hunpack : exec (.pcUnpack rd (pack c)) s = finish .done (s.writeReg rd c) := by
    rw [exec_pcUnpack_of_accepted rd (by rwa [unpack_pack]), unpack_pack]
  have hrd : ((s.writeReg rd c).respond (.ok .done)).readReg rd = some c := readReg_writeReg_same s rd c
  have hrs1 : ((s.writeReg rd c).respond (.ok .done)).readReg rs1 = some c :=
    (readReg_writeReg_ne s c hne.symm).trans hc
  exact ⟨_, _, hunpack, hrd.trans hrs1.symm, exec_pcEq_of_same hrs1 hrd, rfl⟩

/-- Settles O20: PC.PACK only answers, so `exec_pcUnpack_pack_same` applies to the state after it. -/
theorem packAndUnpackAreInverse : Obligations.PackAndUnpackAreInverse := by
  refine ⟨unpack_pack, pack_unpack, fun rs1 rd c s hne hc haccept => ?_⟩
  obtain ⟨u, v, hunpack, hsame, heq, hanswer⟩ :=
    exec_pcUnpack_pack_same (s := s.respond (.ok (.packed (pack c) (packBytes c)))) hne hc haccept
  exact ⟨pack c, packBytes c, _, u, v, exec_pcPack_of_some hc, rfl, hunpack, hsame, heq, hanswer⟩

end Sys2Proof.Machine
end

section
/-! PROOFS of the statements on sequences (42_sequence.md). First the buffer of a sequence: the bytes of a command and the command
of four bytes determine each other, so encoding and decoding whole groups are inverse, and group j is read off the encoding of what
was decoded. Then the five operations, each as one equation for each of its cases, and what disposal leaves alone. -/

namespace Sys2Proof.Machine

/-! ### One group (41_pack_unpack.md R72, R76) -/

/-- The two bytes of a segment make its word. -/
theorem append_of_segmentBytes {d : Duration} {l : Bool} {lo hi : Byte} (h : segmentBytes d l = [lo, hi]) :
    hi ++ lo = segmentWord d l := by
  rw [segmentBytes_eq_extractLsb'] at h
  cases h
  exact BitVec.extractLsb'_append_extractLsb'

/-- The segment read from two bytes has these bytes. -/
theorem segmentBytes_of_bytes (lo hi : Byte) : segmentBytes (segmentDuration lo hi) (segmentLevel hi) = [lo, hi] := by
  rw [segmentBytes_eq_extractLsb', segmentWord_of_bytes]
  exact congrArg₂ (fun a b => [a, b]) BitVec.extractLsb'_append_eq_right BitVec.extractLsb'_append_eq_left

/-- The command read from four bytes has these bytes. -/
theorem packBytes_unpackBytes (b0 b1 b2 b3 : Byte) : packBytes (unpackBytes b0 b1 b2 b3) = [b0, b1, b2, b3] := by
  rw [packBytes, unpackBytes, segmentBytes_of_bytes, segmentBytes_of_bytes, List.cons_append, List.cons_append,
    List.nil_append]

/-- Every command is the one read from its four bytes (R79). -/
theorem exists_bytes (c : PulseCommand) : ∃ b0 b1 b2 b3, packBytes c = [b0, b1, b2, b3] ∧ unpackBytes b0 b1 b2 b3 = c := by
  refine ⟨_, _, _, _, rfl, ?_⟩
  rw [unpackBytes_eq_unpack, groupWord_eq_append, append_of_segmentBytes (d := c.d0) (l := c.l0) rfl,
    append_of_segmentBytes (d := c.d1) (l := c.l1) rfl, ← pack_eq_append, unpack_pack]

/-! ### Encoding a sequence (R80) -/

/-- The buffer of n commands has 4n bytes. -/
@[simp] theorem encodeSeq_length (cs : List PulseCommand) : (encodeSeq cs).length = 4 * cs.length := by
  induction cs with
  | nil => rfl
  | cons c cs ih =>
    rw [encodeSeq_cons, List.length_append, ih, packBytes_length, List.length_cons]
    omega

/-- Encoding distributes over concatenation (R90). -/
theorem encodeSeq_append (cs ds : List PulseCommand) : encodeSeq (cs ++ ds) = encodeSeq cs ++ encodeSeq ds :=
  List.flatMap_append

/-- Byte k of command i stands at offset 4i + k. -/
theorem memRead_encodeSeq {cs : List PulseCommand} {i k : Nat} {c : PulseCommand} (hi : cs[i]? = some c) (hk : k < 4) :
    memRead (encodeSeq cs) (4 * i + k) = (packBytes c)[k]? := by
  induction cs generalizing i with
  | nil => simp at hi
  | cons c' cs ih =>
    rw [memRead, encodeSeq_cons]
    cases i with
    | zero =>
      obtain rfl : c' = c := by simpa using hi
      rw [List.getElem?_append_left (by rw [packBytes_length]; omega), Nat.mul_zero, Nat.zero_add]
    | succ i =>
      have hoff : 4 * (i + 1) + k - (packBytes c').length = 4 * i + k := by
        rw [packBytes_length]
        omega
      rw [List.getElem?_append_right (by rw [packBytes_length]; omega), hoff]
      exact ih (by simpa using hi)

/-- Settles O25: the bytes by `memRead_encodeSeq`, which goes through the commands in order. -/
theorem encodeSeqPlacesEveryByte : Obligations.EncodeSeqPlacesEveryByte :=
  fun cs => ⟨encodeSeq_length cs, encodeSeq_nil, List.flatMap_def, fun _ _ _ hi hk => memRead_encodeSeq hi hk⟩

/-! ### Decoding a buffer (R81) -/

/-- Decoding reads a leading command's bytes back. -/
theorem decodeGroups_packBytes_append (c : PulseCommand) (rest : List Byte) :
    decodeGroups (packBytes c ++ rest) = c :: decodeGroups rest := by
  obtain ⟨b0, b1, b2, b3, hbytes, hc⟩ := exists_bytes c
  rw [hbytes, ← hc]
  rfl

/-- Decoding an encoded sequence gives it back (R90). -/
@[simp] theorem decodeGroups_encodeSeq (cs : List PulseCommand) : decodeGroups (encodeSeq cs) = cs := by
  induction cs with
  | nil => rfl
  | cons c cs ih => rw [encodeSeq_cons, decodeGroups_packBytes_append, ih]

/-- A buffer of whole groups that holds no first group is empty. -/
theorem eq_nil_of_no_group {b : List Byte} (hwhole : b.length % 4 = 0)
    (h : ∀ b0 b1 b2 b3 rest, b = b0 :: b1 :: b2 :: b3 :: rest → False) : b = [] := by
  match b with
  | [] => rfl
  | [_] | [_, _] | [_, _, _] => cases hwhole
  | b0 :: b1 :: b2 :: b3 :: rest => exact (h b0 b1 b2 b3 rest rfl).elim

/-- Encoding what a buffer of whole groups decodes to gives the buffer back (R90). -/
theorem encodeSeq_decodeGroups {b : List Byte} (hwhole : b.length % 4 = 0) : encodeSeq (decodeGroups b) = b := by
  induction b using decodeGroups.induct with
  | case1 b0 b1 b2 b3 rest ih =>
    have hrest : rest.length % 4 = 0 := by
      simp only [List.length_cons] at hwhole
      omega
    rw [decodeGroups, encodeSeq_cons, packBytes_unpackBytes, ih hrest]
    rfl
  | case2 b hnone =>
    obtain rfl := eq_nil_of_no_group hwhole hnone
    rfl

/-- A buffer of whole groups has a quarter as many commands as bytes. -/
theorem decodeGroups_length {b : List Byte} (hwhole : b.length % 4 = 0) : (decodeGroups b).length = b.length / 4 := by
  have hlen : b.length = 4 * (decodeGroups b).length := by
    rw [← encodeSeq_length, encodeSeq_decodeGroups hwhole]
  omega

/-- Command j of a buffer of whole groups is read from its offsets 4j to 4j+3: these hold the command's bytes, the buffer being the
encoding of what it decodes to. -/
theorem decodeGroups_group {b : List Byte} (hwhole : b.length % 4 = 0) {j : Nat} (hj : j < b.length / 4) :
    ∃ b0 b1 b2 b3, memRead b (4 * j) = some b0 ∧ memRead b (4 * j + 1) = some b1 ∧ memRead b (4 * j + 2) = some b2 ∧
      memRead b (4 * j + 3) = some b3 ∧ (decodeGroups b)[j]? = some (unpackBytes b0 b1 b2 b3) := by
  have hlt : j < (decodeGroups b).length := by rwa [decodeGroups_length hwhole]
  have hc : (decodeGroups b)[j]? = some (decodeGroups b)[j] := List.getElem?_eq_getElem hlt
  obtain ⟨b0, b1, b2, b3, hbytes, hunpack⟩ := exists_bytes (decodeGroups b)[j]
  have hread : ∀ k, k < 4 → memRead b (4 * j + k) = [b0, b1, b2, b3][k]? := fun k hk => by
    rw [← hbytes, ← memRead_encodeSeq hc hk, encodeSeq_decodeGroups hwhole]
  exact ⟨b0, b1, b2, b3, hread 0 (by decide), hread 1 (by decide), hread 2 (by decide), hread 3 (by decide), hunpack ▸ hc⟩

/-! ### The decoder's errors (R81, 60_exceptions.md R98) -/

/-- A length that is no multiple of 4 is a FormatError alone. -/
theorem decodeErrors_of_partial {b : List Byte} (h : b.length % 4 ≠ 0) (cfg : Config) :
    decodeErrors cfg b = [.formatError b.length] := by
  rw [decodeErrors, if_pos h]

/-- The errors of a buffer of whole groups are the records of its failing groups. -/
theorem mem_decodeErrors {b : List Byte} (hwhole : b.length % 4 = 0) {cfg : Config} {e : Error} :
    e ∈ decodeErrors cfg b ↔ ∃ c ∈ decodeGroups b, ∃ info, decodeCheck cfg c = some info ∧ e = .rangeError info := by
  rw [decodeErrors, if_neg (not_not.2 hwhole), mem_rangeErrors]
  constructor
  · rintro ⟨info, hinfo, rfl⟩
    obtain ⟨c, hc, hcheck⟩ := List.mem_map.1 hinfo
    exact ⟨c, hc, info, hcheck, rfl⟩
  · rintro ⟨c, hc, info, hcheck, rfl⟩
    exact ⟨info, List.mem_map.2 ⟨c, hc, hcheck⟩, rfl⟩

/-- A buffer decodes without error exactly when its groups are whole and each passes the decoder's check. -/
theorem decodeErrors_eq_nil_iff {cfg : Config} {b : List Byte} :
    decodeErrors cfg b = [] ↔ b.length % 4 = 0 ∧ ∀ c ∈ decodeGroups b, decodeCheck cfg c = none := by
  refine ⟨fun h => ⟨?_, decodeCheck_of_decodeErrors h⟩, fun ⟨hwhole, hpass⟩ => ?_⟩
  · by_contra hpartial
    rw [decodeErrors_of_partial hpartial] at h
    cases h
  · refine List.eq_nil_iff_forall_not_mem.2 fun e he => ?_
    obtain ⟨c, hc, info, hcheck, -⟩ := (mem_decodeErrors hwhole).1 he
    rw [hpass c hc] at hcheck
    cases hcheck

/-- Whole groups decode without error when the policy accepts them all or they all meet the minimum. -/
theorem decodeErrors_of_accepted {cfg : Config} {b : List Byte} (hwhole : b.length % 4 = 0)
    (h : cfg.decodeMinPolicy = .accept ∨ ∀ c ∈ decodeGroups b, meetsMinimum cfg c) : decodeErrors cfg b = [] :=
  decodeErrors_eq_nil_iff.2 ⟨hwhole, fun c hc => decodeCheck_eq_none.2 (h.imp_right fun hmin => hmin c hc)⟩

/-- An encoded sequence decodes without error under the same premise (R90). -/
theorem decodeErrors_encodeSeq {cfg : Config} {cs : List PulseCommand}
    (h : cfg.decodeMinPolicy = .accept ∨ ∀ c ∈ cs, meetsMinimum cfg c) : decodeErrors cfg (encodeSeq cs) = [] := by
  refine decodeErrors_of_accepted ?_ (by rwa [decodeGroups_encodeSeq])
  rw [encodeSeq_length, Nat.mul_mod_right]

/-- Settles O26, by the laws of the decoder's errors and of its groups. -/
theorem decodeSeqReadsWholeGroups : Obligations.DecodeSeqReadsWholeGroups :=
  fun cfg _ => ⟨fun h => decodeErrors_of_partial h cfg, fun hwhole =>
    ⟨decodeGroups_length hwhole, fun _ hj => decodeGroups_group hwhole hj, fun _ => mem_decodeErrors hwhole⟩⟩

/-- Settles O27: a buffer that decodes without error has whole groups, which is what the third law needs. -/
theorem sequenceEncodingLaws : Obligations.SequenceEncodingLaws :=
  ⟨encodeSeq_length, fun _ cs h => ⟨decodeErrors_encodeSeq h, decodeGroups_encodeSeq cs⟩,
    fun _ _ h => let ⟨hwhole, _⟩ := decodeErrors_eq_nil_iff.1 h; encodeSeq_decodeGroups hwhole, encodeSeq_append⟩

/-! ### Where there is no step (60_exceptions.md R97) -/

/-- Every instruction has a next state but SEQ.APPEND at capacity and SEQ.PARSE over the bound. -/
theorem exec_next_or_stuck (i : Instr) (s : State) :
    (∃ t, exec i s = .next t) ∨ (∃ r, i = .seqAppend r ∧ s.cfg.cmdlistMax = some s.cmdlist.length) ∨
      (i = .seqParse ∧ overParseBound s = true) := by
  have hcases := exec_cases i s
  generalize exec i s = o at hcases ⊢
  cases hcases with
  | full r hi hm => exact .inr (.inl ⟨r, hi, hm⟩)
  | long hi hb => exact .inr (.inr ⟨hi, hb⟩)
  | _ => exact .inl ⟨_, rfl⟩

/-! ### The gate (R89) -/

/-- While not DISPOSED there is no disposal error. -/
theorem disposedErrors_of_false {s : State} (h : s.disposed = false) : disposedErrors s = [] := by
  simp [disposedErrors, h]

/-- While DISPOSED there is one. -/
theorem disposedErrors_of_true {s : State} (h : s.disposed = true) : disposedErrors s = [.disposedError] := by
  simp [disposedErrors, h]

/-! ### SEQ.APPEND (R82, R83) -/

/-- A written operand register leaves no Unwritten error. -/
theorem unwrittenErrors_of_some {s : State} {i : RegIndex} {c : PulseCommand} (h : s.readReg i = some c) :
    unwrittenErrors s [i] = [] := by
  simp [unwrittenErrors, h]

/-- An operand register holding ⊥ leaves one. -/
theorem unwrittenErrors_of_none {s : State} {i : RegIndex} (h : s.readReg i = none) :
    unwrittenErrors s [i] = [.unwritten i] := by
  simp [unwrittenErrors, h]

/-- SEQ.APPEND with no applicable error is decided by the capacity. -/
theorem exec_seqAppend_of_no_error {s : State} {rs1 : RegIndex} {c : PulseCommand} (hd : s.disposed = false)
    (hc : s.readReg rs1 = some c) :
    exec (.seqAppend rs1) s =
      if atCapacity s then .fault .appendAtCapacity else finish .done { s with cmdlist := s.cmdlist ++ [c] } := by
  rw [exec, execSeqAppend, disposedErrors_of_false hd, unwrittenErrors_of_some hc, List.nil_append, guardErrors_nil,
    withReg_of_some hc]

/-- The list is at capacity when its length equals CMDLIST_MAX (notes/assumptions/14.md). -/
theorem atCapacity_iff {s : State} : atCapacity s = true ↔ s.cfg.cmdlistMax = some s.cmdlist.length :=
  beq_iff_eq

/-- At capacity an error-free SEQ.APPEND has no step (R83). -/
theorem exec_seqAppend_of_full {s : State} {rs1 : RegIndex} {c : PulseCommand} (hd : s.disposed = false)
    (hc : s.readReg rs1 = some c) (hm : s.cfg.cmdlistMax = some s.cmdlist.length) :
    exec (.seqAppend rs1) s = .fault .appendAtCapacity := by
  rw [exec_seqAppend_of_no_error hd hc, if_pos (atCapacity_iff.2 hm)]

/-- SEQ.APPEND while DISPOSED, of a written register. -/
theorem exec_seqAppend_of_disposed {s : State} {rs1 : RegIndex} {c : PulseCommand} (hd : s.disposed = true)
    (hc : s.readReg rs1 = some c) : exec (.seqAppend rs1) s = raise .disposedError s := by
  rw [exec, execSeqAppend, disposedErrors_of_true hd, unwrittenErrors_of_some hc, List.append_nil, guardErrors_singleton]

/-- SEQ.APPEND of a register holding ⊥, while not DISPOSED. -/
theorem exec_seqAppend_of_unwritten {s : State} {rs1 : RegIndex} (hd : s.disposed = false) (hr : s.readReg rs1 = none) :
    exec (.seqAppend rs1) s = raise (.unwritten rs1) s := by
  rw [exec, execSeqAppend, disposedErrors_of_false hd, unwrittenErrors_of_none hr, List.nil_append, guardErrors_singleton]

/-- With both errors applicable SEQ.APPEND raises one of them. -/
theorem exec_seqAppend_of_both {s : State} {rs1 : RegIndex} (hd : s.disposed = true) (hr : s.readReg rs1 = none) :
    ∃ e draws, (e = .disposedError ∨ e = .unwritten rs1) ∧
      exec (.seqAppend rs1) s = .next { s with history := s.history ++ [.error e], draws := draws } := by
  rw [exec, execSeqAppend, disposedErrors_of_true hd, unwrittenErrors_of_none hr]
  obtain ⟨e, he, draws, hraise⟩ := guardErrors_of_ne_nil (List.cons_ne_nil .disposedError [.unwritten rs1]) s _
  exact ⟨e, draws, by simpa using he, hraise⟩

/-- Settles O28: DISPOSED and the register tell which errors apply, and where none does, the capacity decides. -/
theorem seqAppendAppendsACopy : Obligations.SeqAppendAppendsACopy := by
  refine ⟨fun w hop h0 h1 => decode_request_of_selectsRow h0 h1 (.seqAppend hop), fun rs1 s => ⟨?_, ?_, ?_, ?_, ?_⟩⟩
  · intro c hd hc hroom
    rw [exec_seqAppend_of_no_error hd hc, if_neg (mt atCapacity_iff.1 hroom), finish_eq]
  · exact fun c hd hc hm => exec_seqAppend_of_full hd hc hm
  · exact fun c hd hc => exec_seqAppend_of_disposed hd hc
  · exact fun hd hr => exec_seqAppend_of_unwritten hd hr
  · exact fun hd hr => exec_seqAppend_of_both hd hr

/-- Settles O29: without a bound, neither of the two stuck cases is possible. -/
theorem appendAtCapacityIsStuck : Obligations.AppendAtCapacityIsStuck := by
  refine fun rs1 s => ⟨fun n c hm hlen hd hc => exec_seqAppend_of_full hd hc (hlen ▸ hm), fun hnone => ?_⟩
  rcases exec_next_or_stuck (.seqAppend rs1) s with hnext | ⟨r, -, hm⟩ | ⟨hi, -⟩
  · exact hnext
  · rw [hnone] at hm
    cases hm
  · cases hi

/-! ### SEQ.CLEAR, SEQ.FORMAT and SEQ.DISPOSE (R84, R85, R88) -/

/-- SEQ.CLEAR while DISPOSED. -/
theorem exec_seqClear_of_disposed {s : State} (hd : s.disposed = true) : exec .seqClear s = raise .disposedError s := by
  rw [exec, execSeqClear, disposedErrors_of_true hd, guardErrors_singleton]

/-- Settles O30: the gate is all that can fail. -/
theorem seqClearEmptiesTheList : Obligations.SeqClearEmptiesTheList := by
  refine ⟨fun w hop h0 h1 => decode_request_of_selectsRow h0 h1 (.seqClear hop), fun s =>
    ⟨fun hd => ?_, fun hd => exec_seqClear_of_disposed hd⟩⟩
  rw [exec, execSeqClear, disposedErrors_of_false hd, guardErrors_nil, finish_eq]

/-- SEQ.FORMAT while DISPOSED. -/
theorem exec_seqFormat_of_disposed {s : State} (hd : s.disposed = true) : exec .seqFormat s = raise .disposedError s := by
  rw [exec, execSeqFormat, disposedErrors_of_true hd, guardErrors_singleton]

/-- SEQ.FORMAT while not DISPOSED answers and records the encoding of the list. -/
theorem exec_seqFormat_of_not_disposed {s : State} (hd : s.disposed = false) :
    exec .seqFormat s =
      .next { s with outbuf := some (encodeSeq s.cmdlist)
                     history := s.history ++ [.ok (.buffer (encodeSeq s.cmdlist))] } := by
  rw [exec, execSeqFormat, disposedErrors_of_false hd, guardErrors_nil, finish_eq]

/-- Settles O31: the buffer is the encoding of the list. -/
theorem seqFormatEncodesTheWholeList : Obligations.SeqFormatEncodesTheWholeList :=
  ⟨fun _ hop h0 h1 => decode_request_of_selectsRow h0 h1 (.seqFormat hop), fun s =>
    ⟨fun hd => ⟨encodeSeq s.cmdlist, List.flatMap_def, encodeSeq_length _, exec_seqFormat_of_not_disposed hd⟩,
      fun hd => exec_seqFormat_of_disposed hd⟩⟩

/-- Settles O34: where DISPOSED is true already, setting it changes nothing. -/
theorem seqDisposeSetsDisposed : Obligations.SeqDisposeSetsDisposed := by
  refine ⟨fun w hop h0 h1 => decode_request_of_selectsRow h0 h1 (.seqDispose hop), fun s => ⟨rfl, fun hd => ?_⟩⟩
  rw [exec, execSeqDispose, ← hd, finish_eq]

/-! ### SEQ.PARSE (R86, R87) -/

/-- An input is over the bound when PARSE_MAX_BYTES is a number below its length. -/
theorem overParseBound_iff {s : State} :
    overParseBound s = true ↔ ∃ m, s.cfg.parseMaxBytes = some m ∧ m < s.dataIn.length := by
  unfold overParseBound
  split
  · next hnone => simp [hnone]
  · next m hm => simp [hm]

/-- An input that exceeds no bound is not over it. -/
theorem overParseBound_of_le {s : State} (h : ∀ m, s.cfg.parseMaxBytes = some m → s.dataIn.length ≤ m) :
    overParseBound s = false := by
  refine Bool.eq_false_iff.2 fun hover => ?_
  obtain ⟨m, hm, hlt⟩ := overParseBound_iff.1 hover
  exact absurd (h m hm) (not_le.2 hlt)

/-- Over the bound SEQ.PARSE has no step (R87). -/
theorem exec_seqParse_of_over {s : State} {m : Nat} (hm : s.cfg.parseMaxBytes = some m) (hlt : m < s.dataIn.length) :
    exec .seqParse s = .fault .parseOverBound := by
  rw [exec, execSeqParse, if_pos (overParseBound_iff.2 ⟨m, hm, hlt⟩)]

/-- Within the bound the decoder's errors guard SEQ.PARSE. -/
theorem exec_seqParse_of_within {s : State} (h : ∀ m, s.cfg.parseMaxBytes = some m → s.dataIn.length ≤ m) :
    exec .seqParse s =
      guardErrors (decodeErrors s.cfg s.dataIn) s
        (finish (.sequence (decodeGroups s.dataIn)) { s with rxseq := some (decodeGroups s.dataIn) }) := by
  rw [exec, execSeqParse, overParseBound_of_le h, if_neg Bool.false_ne_true]

/-- When the decoder finds no error, SEQ.PARSE answers and records the decoded sequence. -/
theorem exec_seqParse_of_no_error {s : State} (h : ∀ m, s.cfg.parseMaxBytes = some m → s.dataIn.length ≤ m)
    (hgood : decodeErrors s.cfg s.dataIn = []) :
    exec .seqParse s =
      .next { s with rxseq := some (decodeGroups s.dataIn)
                     history := s.history ++ [.ok (.sequence (decodeGroups s.dataIn))] } := by
  rw [exec_seqParse_of_within h, hgood, guardErrors_nil, finish_eq]

/-- A rejecting decoder has one record for all failing groups of a buffer (41_pack_unpack.md R77). -/
theorem eq_of_mem_decodeErrors {cfg : Config} {b : List Byte} (hwhole : b.length % 4 = 0)
    (hreject : cfg.decodeMinPolicy = .reject) {e : Error} (he : e ∈ decodeErrors cfg b) :
    e = .rangeError ⟨.duration0, .min, 1, 0⟩ := by
  obtain ⟨c, -, info, hcheck, rfl⟩ := (mem_decodeErrors hwhole).1 he
  have hbelow : ¬ meetsMinimum cfg c := fun hmin => by
    rw [decodeCheck_eq_none.2 (.inr hmin)] at hcheck
    cases hcheck
  rw [decodeCheck_of_not_meetsMinimum hreject hbelow, Option.some_inj] at hcheck
  rw [hcheck]

/-- Settles O32: within the bound, the errors of the input are none, a FormatError, or the one record that all its failing groups
share. -/
theorem seqParseDecodesTheWholeInput : Obligations.SeqParseDecodesTheWholeInput := by
  refine ⟨fun w hop h0 h1 => decode_request_of_selectsRow h0 h1 (.seqParse hop), fun s =>
    ⟨fun m hm hlt => exec_seqParse_of_over hm hlt, fun hwithin => ⟨?_, ?_, ?_⟩⟩⟩
  · exact fun hwhole haccept => exec_seqParse_of_no_error hwithin (decodeErrors_of_accepted hwhole haccept)
  · intro hpartial
    rw [exec_seqParse_of_within hwithin, decodeErrors_of_partial hpartial, guardErrors_singleton, raise_eq]
  · intro hwhole hreject c hc hbelow
    have hne : decodeErrors s.cfg s.dataIn ≠ [] :=
      List.ne_nil_of_mem ((mem_decodeErrors hwhole).2 ⟨c, hc, _, decodeCheck_of_not_meetsMinimum hreject hbelow, rfl⟩)
    have hsame : ∀ e ∈ decodeErrors s.cfg s.dataIn, e = .rangeError ⟨.duration0, .min, 1, 0⟩ :=
      fun _ he => eq_of_mem_decodeErrors hwhole hreject he
    exact ⟨s.draws, by rw [exec_seqParse_of_within hwithin, guardErrors_same hne hsame, raise_eq]⟩

/-- Settles O33: without a bound, neither of the two stuck cases is possible. -/
theorem parseOverBoundIsStuck : Obligations.ParseOverBoundIsStuck := by
  refine fun s => ⟨fun m hm hlt => exec_seqParse_of_over hm hlt, fun hnone => ?_⟩
  rcases exec_next_or_stuck .seqParse s with hnext | ⟨r, hi, -⟩ | ⟨-, hover⟩
  · exact hnext
  · cases hi
  · obtain ⟨m, hm, -⟩ := overParseBound_iff.1 hover
    rw [hnone] at hm
    cases hm

/-- Settles O36: SEQ.PARSE takes the encoding of the list, which fits the bound and decodes without error. -/
theorem parseOfFormatGivesTheListBack : Obligations.ParseOfFormatGivesTheListBack := by
  intro s hd haccept hbound
  refine ⟨_, encodeSeq s.cmdlist, _, exec_seqFormat_of_not_disposed hd, rfl,
    exec_seqParse_of_no_error (fun m hm => ?_) (decodeErrors_encodeSeq haccept), ?_, rfl, rfl⟩
  · rw [encodeSeq_length]
    exact hbound m hm
  · rw [decodeGroups_encodeSeq]

/-! ### What disposal leaves alone (R89) -/

/-- The state with DISPOSED set. -/
def State.dispose (s : State) : State := { s with disposed := true }

/-- Guarding does not read DISPOSED itself: given the same errors, it raises one of them or goes on as before. -/
theorem guardErrors_dispose {s : State} {es : List Error} {k k' : Outcome} (hk : k' = mapOutcome State.dispose k) :
    guardErrors es s.dispose k' = mapOutcome State.dispose (guardErrors es s k) := by
  unfold guardErrors
  split
  · exact hk
  · rfl
  · rfl

/-- Reading an operand register does not read DISPOSED. -/
theorem withReg_dispose {s : State} {i : RegIndex} {k k' : PulseCommand → Outcome}
    (hk : ∀ c, k' c = mapOutcome State.dispose (k c)) :
    withReg i s.dispose k' = mapOutcome State.dispose (withReg i s k) := by
  have hread : s.dispose.readReg i = s.readReg i := rfl
  unfold withReg
  rw [hread]
  split
  · rfl
  · next c _ => exact hk c

/-- An instruction that is not gated does the same with DISPOSED set, and leaves it set. -/
theorem exec_dispose {i : Instr} (hi : i.isGated = false) (s : State) :
    exec i s.dispose = mapOutcome State.dispose (exec i s) := by
  cases i with
  | seqAppend | seqClear | seqFormat => cases hi
  | pcNew | pcUnpack | pulse => exact guardErrors_dispose rfl
  | pcSetD0 | pcSetD1 => exact withReg_dispose fun _ => guardErrors_dispose rfl
  | pcSetL0 | pcSetL1 | pcGet | pcPack => exact withReg_dispose fun _ => rfl
  | pcEq => exact guardErrors_dispose (withReg_dispose fun _ => withReg_dispose fun _ => rfl)
  | seqParse =>
    have hlong : overParseBound s.dispose = overParseBound s := rfl
    simp only [exec, execSeqParse, hlong]
    split
    · rfl
    · exact guardErrors_dispose rfl
  | seqDispose | reservedE | reservedF => rfl

/-- While DISPOSED a gated instruction raises DisposedError, or SEQ.APPEND the Unwritten error of its register (R82). -/
theorem exec_gated_of_disposed {i : Instr} {s : State} (hi : i.isGated = true) (hd : s.disposed = true) :
    ∃ e draws, (e = .disposedError ∨ ∃ r, i = .seqAppend r ∧ s.readReg r = none ∧ e = .unwritten r) ∧
      exec i s = .next { s with history := s.history ++ [.error e], draws := draws } := by
  cases i with
  | seqAppend r =>
    rcases hr : s.readReg r with _ | c
    · obtain ⟨e, draws, he, hraise⟩ := exec_seqAppend_of_both hd hr
      exact ⟨e, draws, he.imp_right fun he => ⟨r, rfl, hr, he⟩, hraise⟩
    · exact ⟨.disposedError, s.draws, .inl rfl, exec_seqAppend_of_disposed hd hr⟩
  | seqClear => exact ⟨.disposedError, s.draws, .inl rfl, exec_seqClear_of_disposed hd⟩
  | seqFormat => exact ⟨.disposedError, s.draws, .inl rfl, exec_seqFormat_of_disposed hd⟩
  | _ => cases hi

/-- Settles O35: `exec_dispose` from the state with DISPOSED false. -/
theorem disposalGatesTheChannelOperations : Obligations.DisposalGatesTheChannelOperations :=
  ⟨fun _ _ hi hd => exec_gated_of_disposed hi hd, fun _ s hi => exec_dispose hi { s with disposed := false }⟩

end Sys2Proof.Machine
end

section
/-! PROOFS of the statements on responses and errors (60_exceptions.md). First what the response of one instruction tells: a next
state holds one more response, and when that is an error, the instruction may raise it and nothing of the block was written. -/

namespace Sys2Proof.Machine

/-! ### The response of an instruction (R91, R94) -/

/-- An instruction with a next state answers OK, or it answers an error that it may raise and changes nothing but the model's own
history and draws. -/
theorem exec_ok_or_error {i : Instr} {s t : State} (h : exec i s = .next t) :
    (∃ r, t.history = s.history ++ [.ok r]) ∨
    ∃ e d, mayRaise i s e ∧ t = { s with history := s.history ++ [.error e], draws := d } := by
  cases outcomes_of_exec h with
  | error e d he => exact .inr ⟨e, d, he, rfl⟩
  | _ => exact .inl ⟨_, rfl⟩

/-- The response says which of the two it was. -/
theorem exec_of_error_response {i : Instr} {s t : State} {e : Error} (h : exec i s = .next t)
    (hresponse : t.history = s.history ++ [.error e]) :
    mayRaise i s e ∧ ∃ d, t = { s with history := s.history ++ [.error e], draws := d } := by
  rcases exec_ok_or_error h with ⟨r, hok⟩ | ⟨e', d, he, rfl⟩
  · simp [hok] at hresponse
  · obtain rfl : e' = e := by simpa using hresponse
    exact ⟨he, d, rfl⟩

/-- Settles O39: the codes are those of the definition, and the causes are those of the error outcome. -/
theorem errorsComeFromTheirCauses : Obligations.ErrorsComeFromTheirCauses := by
  refine ⟨⟨fun _ => rfl, fun _ => rfl, fun _ => rfl, rfl, fun _ => rfl, fun _ => rfl⟩, fun i s t e h hresponse => ?_⟩
  obtain ⟨hcause, -⟩ := exec_of_error_response h hresponse
  exact hcause

/-! ### The response of a step (R94, R97) -/

/-- A step that takes an item and answers an error, be it an instruction's or that of a rejected word, changes nothing besides. -/
theorem step_of_error_response {s t : State} {item : Presented} {rest : List Presented} {e : Error}
    (hp : s.port = item :: rest) (h : step s = .next t) (hresponse : t.history = s.history ++ [.error e]) :
    ∃ d, t = { s.accept item rest with history := s.history ++ [.error e], draws := d } := by
  rcases hd : decode item.word with i | ⟨⟨w⟩⟩
  · rw [step_of_instruction hp hd] at h
    obtain ⟨-, hframe⟩ := exec_of_error_response h hresponse
    exact hframe
  · rw [step_of_rejected hp hd] at h
    cases h
    exact ⟨s.draws, by rw [← hresponse]; rfl⟩

/-- Settles O37: the frame of an error response, read element by element. -/
theorem errorsChangeNoState : Obligations.ErrorsChangeNoState := by
  intro s t item rest e hp h hresponse
  obtain ⟨d, rfl⟩ := step_of_error_response hp h hresponse
  exact ⟨⟨rfl, rfl, rfl, rfl, rfl, fun _ => rfl⟩, rfl, rfl, rfl, rfl⟩

/-- An instruction leaves the port and adds one response, or it is one of the two that can be stuck, with the cause (R83, R87). -/
theorem exec_answered_or_stuck (i : Instr) (s : State) :
    (∃ t r, exec i s = .next t ∧ t.port = s.port ∧ t.history = s.history ++ [r]) ∨
    (exec i s = .fault .appendAtCapacity ∧ (∃ r, i = .seqAppend r) ∧ s.cfg.cmdlistMax = some s.cmdlist.length) ∨
    (exec i s = .fault .parseOverBound ∧ i = .seqParse ∧ ∃ m, s.cfg.parseMaxBytes = some m ∧ m < s.dataIn.length) := by
  have hcases := exec_cases i s
  generalize exec i s = o at hcases ⊢
  cases hcases with
  | full r hi hm => exact .inr (.inl ⟨rfl, ⟨r, hi⟩, hm⟩)
  | long hi hover => exact .inr (.inr ⟨rfl, hi, overParseBound_iff.1 hover⟩)
  | _ => exact .inl ⟨_, _, rfl, rfl, rfl⟩

/-- Settles O38: a decoded instruction runs on the accepted state, and a rejected word is always answered. -/
theorem everyRequestIsAnsweredOrStuck : Obligations.EveryRequestIsAnsweredOrStuck := by
  intro s item rest hp
  rcases hd : decode item.word with i | ⟨⟨w⟩⟩
  · simpa [step_of_instruction hp hd] using exec_answered_or_stuck i (s.accept item rest)
  · exact .inl ⟨_, _, step_of_rejected hp hd, rfl, rfl⟩

end Sys2Proof.Machine
end

section
/-! PROOFS of the statement on reset (70_reset_and_hazards.md). -/

namespace Sys2Proof.Machine

/-- Settles O46: the registers by `resetWith_readReg`; every other element is the field that `State.resetWith` gives it (R30). -/
theorem resetPutsEveryElementAtItsValue : Obligations.ResetPutsEveryElementAtItsValue := by
  refine ⟨fun cfg => ?everyConfiguration, ?modelReset⟩
  case everyConfiguration => exact ⟨resetWith_readReg cfg, rfl, rfl, rfl, rfl, rfl⟩
  case modelReset => exact ⟨Config.atReset, rfl⟩

end Sys2Proof.Machine
end
